-- ==== Sys2Proof/Word.lean ====
section
/-! DEFINITION. The word type of the LS-8 core: every register, cell, opcode and operand is one byte (10_state.md R11, 20_memory.md R30). -/

namespace Sys2Proof

/-- An 8-bit value, unsigned (42_alu_mul_cmp.md R87). -/
abbrev Byte := BitVec 8

end Sys2Proof
end

