-- ==== Sys2Proof/Config.lean ====
section
/-! DEFINITION. The constants 00_scope.md R5 fixes, and the parameters the spec leaves open. -/

namespace Sys2Proof.Config

/-- Number of memory cells (00_scope.md R5, MEM_CELLS). -/
abbrev memCells : Nat := 256

/-- What a cell holds after reset, so what an address no entry lists reads as: "zero-initialized" (10_state.md R26, R27). -/
abbrev memReset : Byte := 0x00#8

/-- Register 7 is the stack pointer (10_state.md R13). -/
abbrev spIndex : Fin 8 := 7

/-- The largest value `pc` can take (00_scope.md R6, PC_MAX). -/
abbrev pcMax : Nat := 257

/-- The address where a program is installed (00_scope.md R5, LOAD_BASE). -/
abbrev loadBase : Nat := 0

/-- Stands where the decoder's three-byte window reaches past address 255 and there is no byte.
It has no body: nothing can compute with it, and no meaning uses it, because the range check of the
operand fetch comes first (20_memory.md R31). Log entry 1, DESIGN CHOICE, safe. -/
opaque absentOperand : Byte

/-- The characters that end a printed line. The spec leaves them open (91_not_in_source.md N22).
Log entry 7, DESIGN CHOICE, safe. -/
opaque lineEnd : List Char

/-- DIAG_TEXT, the whole text of the out-of-range diagnostic, open (92_eei_decisions.md D13). Log entry 7, safe. -/
opaque diagOutOfRangeText : List Char

/-- DIAG_TEXT, what stands before the words "not a valid instruction" (60_exceptions.md R114). Log entry 7, safe. -/
opaque diagUnrecognizedBefore : List Char

/-- DIAG_TEXT, what stands after the words "not a valid instruction" (60_exceptions.md R114). Log entry 7, safe. -/
opaque diagUnrecognizedAfter : List Char

end Sys2Proof.Config
end

