-- ==== Sys2Proof/Machine/State.lean ====
section
/-! DEFINITION. The whole state of the LS-8 core (10_state.md R10) as plain data, its reset value, and the ways a step can stop. -/

namespace Sys2Proof.Machine

/-- A fatal condition with its `info` (60_exceptions.md R100). -/
inductive Condition where
  /-- A read outside 0 to 255; `info` is the address, an integer (60_exceptions.md R101). -/
  | outOfRangeRead (addr : Int)
  /-- A register operand byte above 7; `info` is the byte (60_exceptions.md R104). -/
  | invalidRegisterIndex (b : Byte)
  /-- An ALU selector outside ADD, SUB, CMP; `info` is the selector (60_exceptions.md R103). No instruction raises it.
  The spec gives selectors no codes: log entry 8. -/
  | unsupportedALUOperation (selector : Nat)
  deriving DecidableEq, Repr

/-- The run status (10_state.md R21). -/
inductive Status where
  /-- After reset, before the start command. -/
  | idle
  /-- The loop takes steps; the source's Running flag is true exactly here. -/
  | running
  /-- HLT has run. -/
  | halted
  /-- A fatal condition was raised (60_exceptions.md R106). -/
  | faulted (c : Condition)
  deriving DecidableEq, Repr

/-- An event on the console output port (10_state.md R22). -/
inductive Event where
  /-- From PRN. -/
  | print (v : Byte)
  /-- From a memory access that failed its range check. -/
  | diagOutOfRange
  /-- From the dispatch of a byte with no handler. -/
  | diagUnrecognizedOpcode
  deriving DecidableEq, Repr

/-- The register file `x[0]` to `x[7]` (10_state.md R11): one bank, no hardwired register, no alias. -/
structure RegFile where
  x0 : Byte
  x1 : Byte
  x2 : Byte
  x3 : Byte
  x4 : Byte
  /-- Reserved for the interrupt mask, inert (10_state.md R14). -/
  x5 : Byte
  /-- Reserved for the interrupt status, inert (10_state.md R14). -/
  x6 : Byte
  /-- The stack pointer SP (10_state.md R13). -/
  x7 : Byte
  deriving DecidableEq, Repr

/-- Memory as (address, byte) pairs in the canonical form of `Memory.wf`; an address no pair lists reads as
`Config.memReset`. -/
abbrev Memory := List Host.Cell

/-- The complete architectural state (10_state.md R10) and the record `out` of the console port (R22). -/
structure State where
  /-- 256 cells of 8 bits (10_state.md R26). -/
  mem : Memory
  /-- The eight general registers (10_state.md R11). -/
  x : RegFile
  /-- The flags byte: E in bit 0, G in bit 1, L in bit 2 (10_state.md R19). -/
  fl : Byte
  /-- The program counter, an integer that does not wrap (10_state.md R16). -/
  pc : Nat
  /-- The run status (10_state.md R21). -/
  status : Status
  /-- The events sent since reset, the first one first (10_state.md R22). -/
  out : List Event
  deriving DecidableEq, Repr

/-- Why a step is not taken. The spec enables a step only while `status = Running` (40_fetch_dispatch.md R65), so these
are its stuck states. No instruction's meaning raises one: a fatal condition is a next state whose status is Faulted
(log entry 3). -/
inductive Fault where
  /-- Raised by `fetch` when the status is Idle: the host has not started the core. Safe: the model says nothing of such a step. -/
  | notStarted
  /-- Raised by `fetch` when the status is Halted, which is permanent until reset. Safe. -/
  | halted
  /-- Raised by `fetch` when the status is Faulted, which is permanent until reset. Safe. -/
  | faulted (c : Condition)
  deriving DecidableEq, Repr

/-- Why an instruction is refused. -/
inductive Refusal where
  /-- Raised by an arm of `exec` for an instruction without a meaning. No arm raises it: all ten have one. Safe. -/
  | notModelled (mnemonic : String)
  deriving DecidableEq, Repr

/-- The state after reset (10_state.md R27, 70_reset_and_hazards.md R120). The zeros of `x[0]` to `x[6]` and `fl`, and
Idle, are the spec's own decisions D8 and D9: log entry 6. -/
def State.reset : State where
  mem := []
  x :=
    { x0 := 0x00#8, x1 := 0x00#8, x2 := 0x00#8, x3 := 0x00#8,
      x4 := 0x00#8, x5 := 0x00#8, x6 := 0x00#8, x7 := 0xF4#8 }
  fl := 0x00#8
  pc := 0
  status := .idle
  out := []

end Sys2Proof.Machine
end

