-- ==== Sys2Proof/Machine/Memory.lean ====
section
/-! DEFINITION. Memory as data: reading and writing one cell, and the canonical form every write keeps. The range check is the memory unit's (Machine/Ops.lean). -/

namespace Sys2Proof.Machine

/-- The byte at an address: the listed one, else the reset value (10_state.md R26). -/
def Memory.read : Memory → Nat → Byte
  | [], _ => Config.memReset
  | (b, w) :: rest, a => if a = b then w else Memory.read rest a

/-- Put a pair in front, unless the byte is what an unlisted address reads as. -/
def Memory.consCell (a : Nat) (v : Byte) (m : Memory) : Memory :=
  if v = Config.memReset then m else (a, v) :: m

/-- Store a byte at an address, keeping the pairs in rising order. -/
def Memory.write : Memory → Nat → Byte → Memory
  | [], a, v => Memory.consCell a v []
  | (b, w) :: rest, a, v =>
    if a < b then Memory.consCell a v ((b, w) :: rest)
    else if a = b then Memory.consCell a v rest
    else (b, w) :: Memory.write rest a v

/-- Canonical from an address on: addresses strictly rise from `lo`, each names a cell, and no pair holds the value an
unlisted address reads as. -/
def Memory.wfFrom (lo : Nat) : Memory → Bool
  | [] => true
  | (a, v) :: rest =>
    decide (lo ≤ a) && decide (a < Config.memCells) && decide (v ≠ Config.memReset) && Memory.wfFrom (a + 1) rest

/-- The canonical form of memory. -/
def Memory.wf (m : Memory) : Bool := Memory.wfFrom 0 m

end Sys2Proof.Machine
end

