-- ==== Sys2Proof/Machine/Ops.lean ====
section
/-! DEFINITION. The named operations over registers, status, console port and memory: the primitives of 00_scope.md section 6. -/

namespace Sys2Proof.Machine

/-- How a handler ends. -/
abbrev Result := Host.Outcome State Fault Refusal

/-- `x[i]` (10_state.md R11). -/
def RegFile.get (x : RegFile) (i : Fin 8) : Byte :=
  match i with
  | 0 => x.x0
  | 1 => x.x1
  | 2 => x.x2
  | 3 => x.x3
  | 4 => x.x4
  | 5 => x.x5
  | 6 => x.x6
  | 7 => x.x7

/-- The register file with `x[i]` replaced (10_state.md R12). -/
def RegFile.set (x : RegFile) (i : Fin 8) (v : Byte) : RegFile :=
  match i with
  | 0 => { x with x0 := v }
  | 1 => { x with x1 := v }
  | 2 => { x with x2 := v }
  | 3 => { x with x3 := v }
  | 4 => { x with x4 := v }
  | 5 => { x with x5 := v }
  | 6 => { x with x6 := v }
  | 7 => { x with x7 := v }

/-- `x[i]` of the machine. -/
def State.reg (s : State) (i : Fin 8) : Byte := s.x.get i

/-- `x[i] <- v`; a register is 8 bits, so `v` is already reduced modulo 256 (10_state.md R12). -/
def State.setReg (s : State) (i : Fin 8) (v : Byte) : State := { s with x := s.x.set i v }

/-- `fl <- v`, the whole byte (10_state.md R20). -/
def State.setFl (s : State) (v : Byte) : State := { s with fl := v }

/-- `pc <- t` (10_state.md R16). -/
def State.setPc (s : State) (t : Nat) : State := { s with pc := t }

/-- `pc <- pc + n`, plain integer addition with no wrap (10_state.md R16). -/
def State.advance (s : State) (n : Nat) : State := s.setPc (s.pc + n)

/-- `status <- t` (10_state.md R21). -/
def State.setStatus (s : State) (t : Status) : State := { s with status := t }

/-- `Emit(e)`: append an event to the console port (10_state.md R22). -/
def State.emit (s : State) (e : Event) : State := { s with out := s.out ++ [e] }

/-- `raise C(info)`, the only fatal mechanism and the machine's taking of an exception (60_exceptions.md R106): the
status becomes Faulted, and memory, registers, flags and pc keep their values. Nothing is saved and no handler is
entered (R107), so there is no return from it (R108). -/
def State.raise (s : State) (c : Condition) : State := s.setStatus (.faulted c)

/-- What a check gives: a value, or the state after a fatal condition was raised. -/
inductive Access (α : Type) where
  | value (v : α)
  | raised (s : State)
  deriving DecidableEq, Repr

/-- Go on with the value, or end with the raised state: `raise` ends the block at once (00_scope.md section 6). -/
def Access.andThen {α : Type} (c : Access α) (k : α → Result) : Result :=
  match c with
  | .value v => k v
  | .raised s => .next s

/-- Is the integer address one of the 256 cells? (20_memory.md R31) -/
def inRange (addr : Int) : Bool := decide (0 ≤ addr) && decide (addr ≤ 255)

/-- `MemRead(addr, 1)` (20_memory.md R31). -/
def memRead (addr : Int) (s : State) : Access Byte :=
  if inRange addr then .value (s.mem.read addr.toNat)
  else .raised ((s.emit .diagOutOfRange).raise (.outOfRangeRead addr))

/-- `MemWrite(addr, 1, v)` (20_memory.md R32): a failed write is reported and the instruction carries on. -/
def memWrite (addr : Int) (v : Byte) (s : State) : State :=
  if inRange addr then { s with mem := s.mem.write addr.toNat v }
  else s.emit .diagOutOfRange

end Sys2Proof.Machine
end

