-- ==== Sys2Proof/Machine/Flags.lean ====
section
/-! DEFINITION. The flags byte: its three bits and the one computation that writes it (10_state.md R19, R20). -/

namespace Sys2Proof.Machine

/-- Bit 0 of the flags byte, Equal. -/
def equalBit (fl : Byte) : Bool := fl.getLsbD 0

/-- Bit 1 of the flags byte, Greater-Than. No instruction reads it. -/
def greaterBit (fl : Byte) : Bool := fl.getLsbD 1

/-- Bit 2 of the flags byte, Less-Than. No instruction reads it. -/
def lessBit (fl : Byte) : Bool := fl.getLsbD 2

/-- The whole flags byte a comparison writes, tested in the order equal, greater, else, unsigned
(42_alu_mul_cmp.md R83). -/
def compareFlags (p q : Byte) : Byte :=
  if p.toNat = q.toNat then 0b00000001#8
  else if p.toNat > q.toNat then 0b00000010#8
  else 0b00000100#8

end Sys2Proof.Machine
end

