-- ==== Sys2Proof/Machine/Operands.lean ====
section
/-! DEFINITION. Every operand form: fetching operand bytes at pc + 1 and pc + 2, then checking register indices, in the order of 60_exceptions.md R110. -/

namespace Sys2Proof.Machine

/-- The handler's read of the operand byte at `pc + k` (20_memory.md R34). The byte itself was decoded from that same
cell; the read here is the range check, and it raises OutOfRangeRead above address 255 (log entry 1). -/
def operandAt (k : Nat) (b : Byte) (s : State) : Access Byte :=
  match memRead ((s.pc : Int) + (k : Int)) s with
  | .value _ => .value b
  | .raised t => .raised t

/-- `RegIdx(b)` (30_encoding.md R52). -/
def regIdx (b : Byte) (s : State) : Access (Fin 8) :=
  if h : b.toNat < 8 then .value ⟨b.toNat, h⟩
  else .raised (s.raise (.invalidRegisterIndex b))

/-- Format OP_R: one register operand. -/
def withReg (r : Byte) (s : State) (k : Fin 8 → Result) : Result :=
  (operandAt 1 r s).andThen fun b1 => (regIdx b1 s).andThen k

/-- Format OP_R_I: a register operand and an immediate; both bytes are read before the index is checked. -/
def withRegImm (r imm : Byte) (s : State) (k : Fin 8 → Byte → Result) : Result :=
  (operandAt 1 r s).andThen fun b1 =>
    (operandAt 2 imm s).andThen fun v => (regIdx b1 s).andThen fun i => k i v

/-- Format OP_R_R: two register operands; both bytes are read, then operand1 is checked, then operand2. -/
def withRegReg (a b : Byte) (s : State) (k : Fin 8 → Fin 8 → Result) : Result :=
  (operandAt 1 a s).andThen fun b1 =>
    (operandAt 2 b s).andThen fun b2 =>
      (regIdx b1 s).andThen fun i => (regIdx b2 s).andThen fun j => k i j

/-- Format OP_X_X: two operand bytes that are read and discarded (42_alu_mul_cmp.md R85). -/
def withIgnored (u v : Byte) (s : State) (k : Result) : Result :=
  (operandAt 1 u s).andThen fun _ => (operandAt 2 v s).andThen fun _ => k

end Sys2Proof.Machine
end

