-- ==== Sys2Proof/Machine/Arith.lean ====
section
/-! DEFINITION. The ALU unit and the two arithmetic instructions MUL and CMP (42_alu_mul_cmp.md). -/

namespace Sys2Proof.Machine

/-- The function selector of the ALU (42_alu_mul_cmp.md R80). -/
inductive AluFn where
  | add
  | sub
  | cmp
  /-- A selector outside the supported set; the spec gives selectors no codes (log entry 8). -/
  | other (selector : Nat)
  deriving DecidableEq, Repr

/-- ALU function ADD, modulo 256, no flag (42_alu_mul_cmp.md R81). No instruction reaches it. -/
def aluAdd (a b : Fin 8) (s : State) : State :=
  s.setReg a (BitVec.ofNat 8 ((s.reg a).toNat + (s.reg b).toNat))

/-- ALU function SUB, the non-negative remainder modulo 256, no flag (42_alu_mul_cmp.md R82). No instruction reaches it. -/
def aluSub (a b : Fin 8) (s : State) : State :=
  s.setReg a (BitVec.ofInt 8 (((s.reg a).toNat : Int) - ((s.reg b).toNat : Int)))

/-- ALU function CMP (42_alu_mul_cmp.md R83). -/
def aluCmp (a b : Fin 8) (s : State) : State := s.setFl (compareFlags (s.reg a) (s.reg b))

/-- The ALU: a selector and two register indices; an unsupported selector is fatal (42_alu_mul_cmp.md R84). -/
def alu (f : AluFn) (a b : Fin 8) (s : State) : Access State :=
  match f with
  | .add => .value (aluAdd a b s)
  | .sub => .value (aluSub a b s)
  | .cmp => .value (aluCmp a b s)
  | .other n => .raised (s.raise (.unsupportedALUOperation n))

/-- The low 8 bits of the product (42_alu_mul_cmp.md R87). -/
def mulLow (p q : Byte) : Byte := BitVec.ofNat 8 (p.toNat * q.toNat)

/-- MUL: `x[0] <- x[0] * x[1]`, whatever the operand bytes (42_alu_mul_cmp.md R85). -/
def execMul (u v : Byte) (s : State) : Result :=
  withIgnored u v s (.next ((s.setReg 0 (mulLow (s.reg 0) (s.reg 1))).advance 3))

/-- CMP: the ALU's CMP on the two registers (42_alu_mul_cmp.md R86). -/
def execCmp (a b : Byte) (s : State) : Result :=
  withRegReg a b s fun i j => (alu .cmp i j s).andThen fun t => .next (t.advance 3)

end Sys2Proof.Machine
end

