-- ==== Sys2Proof/Machine/Basic.lean ====
section
/-! DEFINITION. Load immediate, print and halt: LDI, PRN, HLT (41_ldi_prn_hlt.md). -/

namespace Sys2Proof.Machine

/-- LDI: `x[r] <- imm` (41_ldi_prn_hlt.md R75). -/
def execLdi (r imm : Byte) (s : State) : Result :=
  withRegImm r imm s fun i v => .next ((s.setReg i v).advance 3)

/-- PRN: send `x[r]` to the console port (41_ldi_prn_hlt.md R76). -/
def execPrn (r : Byte) (s : State) : Result :=
  withReg r s fun i => .next ((s.emit (.print (s.reg i))).advance 2)

/-- HLT: stop the loop and leave `pc` one past the opcode (41_ldi_prn_hlt.md R77). -/
def execHlt (s : State) : Result := .next ((s.setStatus .halted).advance 1)

end Sys2Proof.Machine
end

