-- ==== Sys2Proof/Machine/Jump.lean ====
section
/-! DEFINITION. The jumps JMP, JEQ, JNE (44_jumps.md). -/

namespace Sys2Proof.Machine

/-- What the JMP handler does: `pc <- zext(x[r])`, no length added (44_jumps.md R95). -/
def jumpToReg (r : Byte) (s : State) : Result :=
  withReg r s fun i => .next (s.setPc (s.reg i).toNat)

/-- JMP (44_jumps.md R95). -/
def execJmp (r : Byte) (s : State) : Result := jumpToReg r s

/-- JEQ: as JMP when the Equal bit is 1; else only past itself, its operand byte not read (44_jumps.md R96). -/
def execJeq (r : Byte) (s : State) : Result :=
  if equalBit s.fl then jumpToReg r s else .next (s.advance 2)

/-- JNE: as JMP when the Equal bit is 0; else only past itself, its operand byte not read (44_jumps.md R97). -/
def execJne (r : Byte) (s : State) : Result :=
  if equalBit s.fl then .next (s.advance 2) else jumpToReg r s

end Sys2Proof.Machine
end

