-- ==== Sys2Proof/Machine/Stack.lean ====
section
/-! DEFINITION. The stack instructions PUSH and POP (43_stack.md). -/

namespace Sys2Proof.Machine

/-- The address PUSH stores to: the stack pointer decremented modulo 256 (43_stack.md R90). -/
def pushAddr (s : State) : Byte := s.reg Config.spIndex - 1#8

/-- The stack pointer decremented, before the store of PUSH (43_stack.md R90). -/
def decrementSp (s : State) : State := s.setReg Config.spIndex (pushAddr s)

/-- The stack pointer incremented modulo 256, the last step of POP (43_stack.md R91). -/
def incrementSp (s : State) : State := s.setReg Config.spIndex (s.reg Config.spIndex + 1#8)

/-- Decrement the stack pointer, then read `x[i]` and store it at the new `x[7]` (43_stack.md R90). -/
def pushReg (i : Fin 8) (s : State) : State :=
  let t := decrementSp s
  memWrite ((t.reg Config.spIndex).toNat : Int) (t.reg i) t

/-- PUSH (43_stack.md R90). -/
def execPush (r : Byte) (s : State) : Result :=
  withReg r s fun i => .next ((pushReg i s).advance 2)

/-- POP: load `x[r]` from the cell at `x[7]`, then increment `x[7]` as it then stands (43_stack.md R91). -/
def execPop (r : Byte) (s : State) : Result :=
  withReg r s fun i =>
    (memRead ((s.reg Config.spIndex).toNat : Int) s).andThen fun v =>
      .next ((incrementSp (s.setReg i v)).advance 2)

end Sys2Proof.Machine
end

