-- ==== Sys2Proof/Syntax.lean ====
section
/-! DEFINITION. The ten instructions of 30_encoding.md R53, one constructor for each row of the opcode table. -/

namespace Sys2Proof

/-- An instruction with its operand bytes. A register operand is the whole operand byte as fetched, 0 to 255:
the handler checks it (30_encoding.md R52), and a conditional jump that does not jump never does
(44_jumps.md R96, R97). Log entry 2. -/
inductive Instr where
  /-- `82 r imm`, 41_ldi_prn_hlt.md R75. -/
  | ldi (r imm : Byte)
  /-- `47 r`, 41_ldi_prn_hlt.md R76. -/
  | prn (r : Byte)
  /-- `A2 u v`, 42_alu_mul_cmp.md R85: both operand bytes are ignored. -/
  | mul (u v : Byte)
  /-- `01`, 41_ldi_prn_hlt.md R77. -/
  | hlt
  /-- `45 r`, 43_stack.md R90. -/
  | push (r : Byte)
  /-- `46 r`, 43_stack.md R91. -/
  | pop (r : Byte)
  /-- `A7 a b`, 42_alu_mul_cmp.md R86. -/
  | cmp (a b : Byte)
  /-- `56 r`, 44_jumps.md R97. -/
  | jne (r : Byte)
  /-- `55 r`, 44_jumps.md R96. -/
  | jeq (r : Byte)
  /-- `54 r`, 44_jumps.md R95. -/
  | jmp (r : Byte)
  deriving DecidableEq, Repr

end Sys2Proof
end

