-- ==== Sys2Proof/Machine/Dispatch.lean ====
section
/-! DEFINITION. The dispatch from an instruction to its handler (40_fetch_dispatch.md R67), one arm for each of the ten. -/

namespace Sys2Proof.Machine

def exec (i : Instr) (s : State) : Host.Outcome State Fault Refusal :=
  match i with
  | .ldi r imm => Sys2Proof.Machine.execLdi r imm s
  | .prn r => Sys2Proof.Machine.execPrn r s
  | .mul u v => Sys2Proof.Machine.execMul u v s
  | .hlt => Sys2Proof.Machine.execHlt s
  | .push r => Sys2Proof.Machine.execPush r s
  | .pop r => Sys2Proof.Machine.execPop r s
  | .cmp a b => Sys2Proof.Machine.execCmp a b s
  | .jne r => Sys2Proof.Machine.execJne r s
  | .jeq r => Sys2Proof.Machine.execJeq r s
  | .jmp r => Sys2Proof.Machine.execJmp r s

end Sys2Proof.Machine
end

