-- ==== Sys2Proof/WellFormed.lean ====
section
/-! DEFINITION. What makes an instruction well formed: each register operand names a register, 0 to 7 (30_encoding.md R52, R56). -/

namespace Sys2Proof

/-- The operand byte names a register (30_encoding.md R52). -/
def isRegByte (b : Byte) : Bool := b.toNat ≤ 7

/-- Every register operand is 0 to 7. Immediates and MUL's two bytes are free (30_encoding.md R56). An instruction
that is not well formed still decodes and runs: its handler raises InvalidRegisterIndex when it checks the byte. -/
def Instr.wellFormed : Instr → Bool
  | .ldi r _ => isRegByte r
  | .prn r => isRegByte r
  | .mul _ _ => true
  | .hlt => true
  | .push r => isRegByte r
  | .pop r => isRegByte r
  | .cmp a b => isRegByte a && isRegByte b
  | .jne r => isRegByte r
  | .jeq r => isRegByte r
  | .jmp r => isRegByte r

end Sys2Proof
end

