-- ==== Sys2Proof/Decode.lean ====
section
/-! DEFINITION. The decoder, total on any bytes, and the encoder, both from the opcode map of 30_encoding.md R53. -/

namespace Sys2Proof

/-- Why bytes are not an instruction. -/
inductive DecodeReject where
  /-- There is no byte to decode. -/
  | noBytes
  /-- The opcode byte is none of the ten (30_encoding.md R55). -/
  | unrecognizedOpcode (op : Byte)
  /-- The bytes end before the instruction's last operand byte. A fetch never meets this: its window is three bytes long. -/
  | cutShort (op : Byte)
  deriving DecidableEq, Repr

/-- How many operand bytes follow the opcode, and the instruction they make (30_encoding.md R51). -/
inductive Form where
  /-- Format OP. -/
  | noOperand (i : Instr)
  /-- Format OP_R. -/
  | oneOperand (mk : Byte → Instr)
  /-- Formats OP_R_I, OP_R_R and OP_X_X. -/
  | twoOperands (mk : Byte → Byte → Instr)

/-- One row of the opcode map: the whole opcode byte is compared (30_encoding.md R54). -/
structure OpcodeRow where
  code : Byte
  form : Form

/-- The opcode map, its ten rows in the order of 30_encoding.md R53. -/
def opcodeMap : List OpcodeRow :=
  [ ⟨0x82#8, .twoOperands .ldi⟩,
    ⟨0x47#8, .oneOperand .prn⟩,
    ⟨0xA2#8, .twoOperands .mul⟩,
    ⟨0x01#8, .noOperand .hlt⟩,
    ⟨0x45#8, .oneOperand .push⟩,
    ⟨0x46#8, .oneOperand .pop⟩,
    ⟨0xA7#8, .twoOperands .cmp⟩,
    ⟨0x56#8, .oneOperand .jne⟩,
    ⟨0x55#8, .oneOperand .jeq⟩,
    ⟨0x54#8, .oneOperand .jmp⟩ ]

/-- Take the operand bytes a form needs, in ascending address order (30_encoding.md R50). -/
def Form.take (op : Byte) : Form → List Byte → Except DecodeReject (Instr × List Byte)
  | .noOperand i, rest => .ok (i, rest)
  | .oneOperand mk, a :: rest => .ok (mk a, rest)
  | .twoOperands mk, a :: b :: rest => .ok (mk a b, rest)
  | _, _ => .error (.cutShort op)

/-- Decode the instruction that starts at the first byte, and give the bytes after it (30_encoding.md R54, R58). -/
def decode : List Byte → Except DecodeReject (Instr × List Byte)
  | [] => .error .noBytes
  | op :: rest =>
    match opcodeMap.find? (fun row => row.code == op) with
    | some row => row.form.take op rest
    | none => .error (.unrecognizedOpcode op)

/-- The bytes of an instruction at ascending addresses (30_encoding.md R51, R53). -/
def encode : Instr → List Byte
  | .ldi r imm => [0b10000010#8, r, imm]
  | .prn r => [0b01000111#8, r]
  | .mul u v => [0b10100010#8, u, v]
  | .hlt => [0b00000001#8]
  | .push r => [0b01000101#8, r]
  | .pop r => [0b01000110#8, r]
  | .cmp a b => [0b10100111#8, a, b]
  | .jne r => [0b01010110#8, r]
  | .jeq r => [0b01010101#8, r]
  | .jmp r => [0b01010100#8, r]

/-- The "bytes" column of 30_encoding.md R53. -/
def Instr.length : Instr → Nat
  | .ldi _ _ => 3
  | .prn _ => 2
  | .mul _ _ => 3
  | .hlt => 1
  | .push _ => 2
  | .pop _ => 2
  | .cmp _ _ => 3
  | .jne _ => 2
  | .jeq _ => 2
  | .jmp _ => 2

/-- The three bytes of an instruction given as a number of `nbits` bits: the first byte is bits 7 to 0, the next
bits 15 to 8, then bits 23 to 16, and every bit above `nbits` is 0. -/
def tableBytes (nbits w : Nat) : List Byte :=
  let v := w % 2 ^ nbits
  [BitVec.ofNat 8 v, BitVec.ofNat 8 (v / 2 ^ 8), BitVec.ofNat 8 (v / 2 ^ 16)]

/-- The instruction the decoder reads from an opcode-table word. -/
def decodeTableWord (nbits w : Nat) : Option Instr :=
  match decode (tableBytes nbits w) with
  | .ok (i, _) => some i
  | .error _ => none

end Sys2Proof
end

