-- ==== Sys2Proof/Machine/Fetch.lean ====
section
/-! DEFINITION. Fetching and decoding the instruction at pc, the unrecognised opcode, and placing an instruction where the next step fetches it. -/

namespace Sys2Proof.Machine

/-- What the start of a step finds. -/
inductive Fetched where
  /-- No step is enabled (40_fetch_dispatch.md R65). -/
  | stuck (f : Fault)
  /-- The step ends here: a failed opcode fetch (R66) or an unrecognised opcode (R68). -/
  | ends (s : State)
  /-- The step runs this instruction (R67). -/
  | runs (i : Instr)
  deriving DecidableEq, Repr

/-- The byte of a cell for the decoder; past the last cell there is none (log entry 1). -/
def byteForDecoder (m : Memory) (a : Nat) : Byte :=
  if a < Config.memCells then m.read a else Config.absentOperand

/-- The three bytes from an address on, the longest an instruction can be (30_encoding.md R50). -/
def fetchWindow (m : Memory) (a : Nat) : List Byte :=
  [byteForDecoder m a, byteForDecoder m (a + 1), byteForDecoder m (a + 2)]

/-- The step on an opcode byte with no handler: report, and change nothing else, pc included (40_fetch_dispatch.md R68). -/
def unrecognized (s : State) : State := s.emit .diagUnrecognizedOpcode

/-- Fetch the opcode byte with MemRead (40_fetch_dispatch.md R66) and decode (R67). -/
def fetchRunning (s : State) : Fetched :=
  match memRead (s.pc : Int) s with
  | .raised t => .ends t
  | .value _ =>
    match decode (fetchWindow s.mem s.pc) with
    | .ok (i, _) => .runs i
    | .error _ => .ends (unrecognized s)

/-- A step is enabled only while the status is Running (40_fetch_dispatch.md R65). -/
def fetch (s : State) : Fetched :=
  match s.status with
  | .running => fetchRunning s
  | .idle => .stuck .notStarted
  | .halted => .stuck .halted
  | .faulted c => .stuck (.faulted c)

/-- Store bytes at ascending addresses; a byte past the last cell has nowhere to go and is dropped. -/
def storeBytes (m : Memory) (a : Nat) : List Byte → Memory
  | [] => m
  | b :: rest =>
    if a < Config.memCells then storeBytes (m.write a b) (a + 1) rest else m

/-- The state with an opcode-table word laid out at `pc` and the core running, as the host's load and start leave it
(log entry 4). -/
def placeInstruction (s : State) (nbits w : Nat) : State :=
  { s with mem := storeBytes s.mem s.pc (tableBytes nbits w), status := .running }

end Sys2Proof.Machine
end

