-- ==== Sys2Proof/Machine/Step.lean ====
section
/-! DEFINITION. One step of the machine: fetch, dispatch, run one handler to its end (40_fetch_dispatch.md R65). -/

namespace Sys2Proof.Machine

/-- One pass of the loop (40_fetch_dispatch.md R65). The loop itself never changes pc (R70). -/
def step (s : State) : Host.Outcome State Fault Refusal :=
  match fetch s with
  | .stuck f => .fault f
  | .ends t => .next t
  | .runs i => exec i s

/-- The state in which the next step fetches and runs the instruction of an opcode-table word (log entry 4). -/
def State.withFetchWord (s : State) (nbits w : Nat) : State := placeInstruction s nbits w

end Sys2Proof.Machine
end

