-- ==== Sys2Proof/Machine/Console.lean ====
section
/-! DEFINITION. The console output port's text: how each event is rendered (60_exceptions.md R114). -/

namespace Sys2Proof.Machine

/-- The character of a decimal digit. -/
def digitChar (d : Nat) : Char := Char.ofNat (48 + d)

/-- The decimal numeral of a byte: no sign, no leading zeros, no padding (60_exceptions.md R114). -/
def decimal (v : Byte) : List Char :=
  let n := v.toNat
  if n < 10 then [digitChar n]
  else if n < 100 then [digitChar (n / 10), digitChar (n % 10)]
  else [digitChar (n / 100), digitChar (n / 10 % 10), digitChar (n % 10)]

/-- The words the unrecognised-opcode diagnostic contains (60_exceptions.md R114). -/
def notAValidInstruction : List Char :=
  ['n', 'o', 't', ' ', 'a', ' ', 'v', 'a', 'l', 'i', 'd', ' '] ++
    ['i', 'n', 's', 't', 'r', 'u', 'c', 't', 'i', 'o', 'n']

/-- The text of one event. Where the spec leaves it open it is a constant of Config without a body (log entry 7). -/
def Event.render : Event → List Char
  | .print v => decimal v ++ Config.lineEnd
  | .diagOutOfRange => Config.diagOutOfRangeText
  | .diagUnrecognizedOpcode =>
    Config.diagUnrecognizedBefore ++ notAValidInstruction ++ Config.diagUnrecognizedAfter

/-- The text of the whole stream, events in order; diagnostics and PRN output share it (60_exceptions.md R114). -/
def renderOut (out : List Event) : List Char := out.flatMap Event.render

end Sys2Proof.Machine
end

