-- ==== Sys2Proof/Machine/Launch.lean ====
section
/-! DEFINITION. The host interface: reset, load, start (70_reset_and_hazards.md R120 to R122). No step performs these; the host does, before a run. -/

namespace Sys2Proof.Machine

/-- The core as the host drives it. `loaded` is the host's own memory of the load contract, not state of the core
(70_reset_and_hazards.md R121, log entry 5). -/
structure Session where
  core : State
  loaded : Bool
  deriving DecidableEq, Repr

/-- A command of the host. -/
inductive Command where
  /-- 70_reset_and_hazards.md R120. -/
  | reset
  /-- 70_reset_and_hazards.md R121: a sequence of non-negative integers. -/
  | load (program : List Nat)
  /-- 70_reset_and_hazards.md R122. -/
  | start
  deriving DecidableEq, Repr

/-- Why a command is refused as outside the interface. -/
inductive CommandReject where
  /-- Load or start when the status is not Idle. -/
  | notIdle
  /-- Reset while the core runs: the host does nothing to a running core, there is "no cancellation" (R122). -/
  | stillRunning
  /-- A second load since reset. -/
  | alreadyLoaded
  /-- Start with no load since reset. -/
  | notLoaded
  /-- More than 256 values. -/
  | tooLong
  /-- A value above 255. -/
  | notByte
  deriving DecidableEq, Repr

/-- Reset: every piece of state at its reset value, and no load yet (70_reset_and_hazards.md R120). -/
def Session.afterReset : Session := { core := .reset, loaded := false }

/-- Load (70_reset_and_hazards.md R121): only in Idle, only a sequence of at most 256 values of 0 to 255, which it writes
from address 0 upward; nothing else changes. Any other sequence is refused: no value is reduced and none is dropped. -/
def State.install (s : State) (program : List Nat) : Except CommandReject State :=
  if s.status ≠ .idle then .error .notIdle
  else if Config.memCells < program.length then .error .tooLong
  else if program.any (fun b => decide (255 < b)) then .error .notByte
  else .ok { s with mem := storeBytes s.mem Config.loadBase (program.map (BitVec.ofNat 8)) }

/-- Start (70_reset_and_hazards.md R122): only in Idle; the status becomes Running and nothing else changes. -/
def State.start (s : State) : Except CommandReject State :=
  if s.status ≠ .idle then .error .notIdle else .ok (s.setStatus .running)

/-- Carry out a command of the host, or refuse it. Between reset and start there is exactly one load: a second is refused,
and so is a start with none (70_reset_and_hazards.md R121, log entry 5). -/
def Session.command (u : Session) : Command → Except CommandReject Session
  | .reset => if u.core.status = .running then .error .stillRunning else .ok .afterReset
  | .load program =>
    if u.loaded then .error .alreadyLoaded
    else (u.core.install program).map fun s => { core := s, loaded := true }
  | .start =>
    if u.loaded then u.core.start.map fun s => { u with core := s }
    else .error .notLoaded

/-- Carry out commands in order, up to the first that is refused. -/
def Session.commands : List Command → Session → Except CommandReject Session
  | [], u => .ok u
  | c :: rest, u => (u.command c).bind (Session.commands rest)

/-- The launch state of a program: reset, load, start, in that order (70_reset_and_hazards.md R120 to R122). A program that
load refuses has none. -/
def launch (program : List Nat) : Except CommandReject State :=
  (Session.afterReset.commands [.reset, .load program, .start]).map Session.core

end Sys2Proof.Machine
end

