-- ==== Sys2Proof/Safety.lean ====
section
/-! DEFINITION. The terms claims use: what an instruction leaves unchanged, what a fatal condition leaves, the invariant of the machine, and what a safe run is. -/

namespace Sys2Proof.Machine

/-- The operand byte that names register `i` (30_encoding.md R52). -/
def regByte (i : Fin 8) : Byte := BitVec.ofNat 8 i.val

/-- Every cell of memory reads as before. -/
def SameMemory (s t : State) : Prop := ∀ a : Nat, t.mem.read a = s.mem.read a

/-- Every register but those numbered in `written` holds what it held. -/
def SameRegsExcept (written : List Nat) (s t : State) : Prop :=
  ∀ k : Fin 8, k.val ∉ written → t.reg k = s.reg k

/-- A fatal condition taken precisely (60_exceptions.md R106): status Faulted, `events` appended to `out`, and memory,
registers, flags and pc as they were. -/
def FaultsPrecisely (c : Condition) (events : List Event) (s t : State) : Prop :=
  t.status = .faulted c ∧ t.out = s.out ++ events ∧ t.pc = s.pc ∧ t.fl = s.fl ∧
    SameRegsExcept [] s t ∧ SameMemory s t

/-- The two states agree on everything but register `k`. -/
def AgreeExceptReg (k : Fin 8) (s t : State) : Prop :=
  SameRegsExcept [k.val] s t ∧ SameMemory s t ∧ t.fl = s.fl ∧ t.pc = s.pc ∧ t.status = s.status ∧ t.out = s.out

/-- The registers an instruction reads, by number, given whether the Equal bit is set (10_state.md R15). -/
def regsRead (equal : Bool) : Instr → List Nat
  | .ldi _ _ => []
  | .prn r => [r.toNat]
  | .mul _ _ => [0, 1]
  | .hlt => []
  | .push r => [7, r.toNat]
  | .pop _ => [7]
  | .cmp a b => [a.toNat, b.toNat]
  | .jne r => if equal then [] else [r.toNat]
  | .jeq r => if equal then [r.toNat] else []
  | .jmp r => [r.toNat]

/-- The registers an instruction writes, by number (10_state.md R15). -/
def regsWritten : Instr → List Nat
  | .ldi r _ => [r.toNat]
  | .prn _ => []
  | .mul _ _ => [0]
  | .hlt => []
  | .push _ => [7]
  | .pop r => [r.toNat, 7]
  | .cmp _ _ => []
  | .jne _ => []
  | .jeq _ => []
  | .jmp _ => []

/-- The condition can arise from a program: a read at 256 or 257, or a register byte above 7 (20_memory.md R34,
60_exceptions.md R103, R104). -/
def Condition.fromProgram : Condition → Bool
  | .outOfRangeRead a => decide (a = 256) || decide (a = 257)
  | .invalidRegisterIndex b => decide (7 < b.toNat)
  | .unsupportedALUOperation _ => false

/-- The status is one a run can have. -/
def Status.legal : Status → Bool
  | .faulted c => c.fromProgram
  | .idle => true
  | .running => true
  | .halted => true

/-- The machine's invariant: memory canonical, pc at most 257 (10_state.md R16), the flags byte 0, 1, 2 or 4
(10_state.md R20), and a fatal condition only if a program can raise it. -/
structure Inv (s : State) : Prop where
  mem : s.mem.wf = true
  pc : s.pc ≤ Config.pcMax
  fl : s.fl = 0#8 ∨ s.fl = 1#8 ∨ s.fl = 2#8 ∨ s.fl = 4#8
  status : s.status.legal = true

/-- The opcode byte of 30_encoding.md R53 is one of the ten. -/
def isOpcode (op : Byte) : Bool :=
  [0x82#8, 0x47#8, 0xA2#8, 0x01#8, 0x45#8, 0x46#8, 0xA7#8, 0x56#8, 0x55#8, 0x54#8].contains op

/-- The core stands on a byte that is no opcode, so its run never ends (40_fetch_dispatch.md R69). -/
def Livelocked (s : State) : Prop := s.status = .running ∧ s.pc ≤ 255 ∧ isOpcode (s.mem.read s.pc) = false

/-- A run of `k` steps is safe if every state on it is running or halted, and none is livelocked: it meets neither a
fatal condition nor an unrecognised opcode (60_exceptions.md R100). A step after Halted is not asked for. -/
def SafeRun : Nat → State → Prop
  | 0, s => (s.status = .running ∨ s.status = .halted) ∧ ¬ Livelocked s
  | k + 1, s =>
    s.status = .halted ∨ (s.status = .running ∧ ¬ Livelocked s ∧ ∃ t, step s = .next t ∧ SafeRun k t)

/-- Run the handlers of a list of instructions one after another. -/
def execAll : List Instr → State → Result
  | [], s => .next s
  | i :: rest, s =>
    match exec i s with
    | .next t => execAll rest t
    | .fault f => .fault f
    | .refused r => .refused r

end Sys2Proof.Machine
end

