-- ==== Sys2Proof/Certificates/Slice0/Obligations.lean ====
section
/-! DEFINITION. The statements for the provers, from the numbered rules of spec/. Where a clause rests on a decision the
spec marks as its own (92_eei_decisions.md D1 to D22) or on a choice of the model, its docstring says so. -/

open Sys2Proof Sys2Proof.Machine

/-! ### Encoding -/

/-- The ten rows of the opcode map, each word written out as 30_encoding.md section 3 gives it, decode to their
instructions with every operand byte in its place. -/
def Obligations.WrittenWordsDecode : Prop :=
  ∀ a b : Byte,
    decode [0b10000010#8, a, b] = .ok (.ldi a b, []) ∧ decode [0b01000111#8, a] = .ok (.prn a, []) ∧
    decode [0b10100010#8, a, b] = .ok (.mul a b, []) ∧ decode [0b00000001#8] = .ok (.hlt, []) ∧
    decode [0b01000101#8, a] = .ok (.push a, []) ∧ decode [0b01000110#8, a] = .ok (.pop a, []) ∧
    decode [0b10100111#8, a, b] = .ok (.cmp a b, []) ∧ decode [0b01010110#8, a] = .ok (.jne a, []) ∧
    decode [0b01010101#8, a] = .ok (.jeq a, []) ∧ decode [0b01010100#8, a] = .ok (.jmp a, [])

/-- Decoding is exactly the inverse of encoding: bytes decode to an instruction and a rest if and only if they are that
instruction's bytes followed by that rest. Every operand byte is free, well formed or not. -/
def Obligations.DecodingInvertsEncoding : Prop :=
  ∀ (bytes rest : List Byte) (i : Instr), decode bytes = .ok (i, rest) ↔ bytes = encode i ++ rest

/-- Exactly the opcode bytes outside the ten are rejected as unrecognised, whatever follows, and there are 246 of them. -/
def Obligations.BytesOutsideMapAreUnrecognized : Prop :=
  (∀ (op : Byte) (rest : List Byte),
    decode (op :: rest) = .error (.unrecognizedOpcode op) ↔
      op ∉ [0x01#8, 0x45#8, 0x46#8, 0x47#8, 0x54#8, 0x55#8, 0x56#8, 0x82#8, 0xA2#8, 0xA7#8]) ∧
  ((List.range 256).filter fun n => !isOpcode (BitVec.ofNat 8 n)).length = 246

/-- The opcode table's numbering: the opcode is bits 7 to 0, operand1 bits 15 to 8, operand2 bits 23 to 16. The
interface is the model's own (log entry 4). -/
def Obligations.TableWordsDecode : Prop :=
  ∀ a b : Byte,
    let one := fun op : Nat => op + 256 * a.toNat
    let two := fun op : Nat => op + 256 * a.toNat + 65536 * b.toNat
    decodeTableWord 24 (two 0x82) = some (.ldi a b) ∧ decodeTableWord 16 (one 0x47) = some (.prn a) ∧
    decodeTableWord 24 (two 0xA2) = some (.mul a b) ∧ decodeTableWord 8 0x01 = some .hlt ∧
    decodeTableWord 16 (one 0x45) = some (.push a) ∧ decodeTableWord 16 (one 0x46) = some (.pop a) ∧
    decodeTableWord 24 (two 0xA7) = some (.cmp a b) ∧ decodeTableWord 16 (one 0x56) = some (.jne a) ∧
    decodeTableWord 16 (one 0x55) = some (.jeq a) ∧ decodeTableWord 16 (one 0x54) = some (.jmp a)

/-- An instruction placed where the next step fetches is the one the next step runs. The interface is the model's own
(log entry 4). -/
def Obligations.PlacedWordIsRunNext : Prop :=
  ∀ (s : State) (nbits w : Nat) (i : Instr),
    s.mem.wf = true → s.pc ≤ 253 → decodeTableWord nbits w = some i →
      step (s.withFetchWord nbits w) = exec i (s.withFetchWord nbits w)

/-! ### Memory -/

/-- A read of a cell after a write to a cell gives the written byte where the addresses agree and the earlier byte
elsewhere, and changes nothing (20_memory.md R31, R32). The canonical form of memory is the model's own. -/
def Obligations.ReadsSeeTheLatestWrite : Prop :=
  ∀ (s : State) (a b : Nat) (v : Byte), s.mem.wf = true → a ≤ 255 → b ≤ 255 →
    ∃ w, memRead (b : Int) s = .value w ∧
      memRead (b : Int) (memWrite (a : Int) v s) = .value (if b = a then v else w)

/-- An access to address 256 or -1 reports DiagOutOfRange and does not mutate memory (20_memory.md R33). That the failed
read is the fatal OutOfRangeRead, that the failed write goes on, and that the fatal state is precise are the spec's
decisions D3, D4 and D11 (log entry 10); that a program reaches 256 by a fetch and never reaches -1 are sentences R33
marks as derived. -/
def Obligations.OutOfRangeAccessIsReported : Prop :=
  (∀ (s : State) (addr : Int) (v : Byte), addr = 256 ∨ addr = -1 →
    (∃ t, memRead addr s = .raised t ∧ FaultsPrecisely (.outOfRangeRead addr) [.diagOutOfRange] s t) ∧
    (memWrite addr v s).out = s.out ++ [.diagOutOfRange] ∧ SameMemory s (memWrite addr v s) ∧
    (memWrite addr v s).status = s.status ∧ (memWrite addr v s).pc = s.pc ∧ (memWrite addr v s).fl = s.fl ∧
    SameRegsExcept [] s (memWrite addr v s)) ∧
  (∃ s t : State, Inv s ∧ step s = .next t ∧ t.status = .faulted (.outOfRangeRead 256)) ∧
  (∀ s t : State, step s = .next t → t.status ≠ .faulted (.outOfRangeRead (-1)))

/-- Two canonical memories that read alike at every address are the same data. The form is the model's own. -/
def Obligations.CanonicalMemoryIsDeterminedByItsReads : Prop :=
  ∀ m n : Memory, m.wf = true → n.wf = true → (∀ a, m.read a = n.read a) → m = n

/-! ### The ten instructions: result, frame, completion, and where each one is fatal -/

/-- LDI (41_ldi_prn_hlt.md R75). That the two fatal cases are fatal is the spec's decisions D3 and D5, that they are precise
its decision D11 (60_exceptions.md R106), that the fetch's comes first D12 (log entry 10). -/
def Obligations.LdiWritesItsImmediate : Prop :=
  ∀ (s : State) (imm : Byte),
    (∀ i : Fin 8, s.pc ≤ 253 →
      ∃ t, exec (.ldi (regByte i) imm) s = .next t ∧ t.reg i = imm ∧ SameRegsExcept [i.val] s t ∧
        t.pc = s.pc + 3 ∧ t.fl = s.fl ∧ t.status = s.status ∧ t.out = s.out ∧ SameMemory s t) ∧
    (∀ r : Byte, s.pc = 254 ∨ s.pc = 255 →
      ∃ t, exec (.ldi r imm) s = .next t ∧ FaultsPrecisely (.outOfRangeRead 256) [.diagOutOfRange] s t) ∧
    (∀ r : Byte, s.pc ≤ 253 → 7 < r.toNat →
      ∃ t, exec (.ldi r imm) s = .next t ∧ FaultsPrecisely (.invalidRegisterIndex r) [] s t)

/-- PRN (41_ldi_prn_hlt.md R76), with the text of the event (60_exceptions.md R114; the line end has no value, log entry 7).
That the two fatal cases are fatal is the spec's decisions D3 and D5, that they are precise its decision D11
(60_exceptions.md R106), that the fetch's comes first D12 (log entry 10). -/
def Obligations.PrnPrintsItsRegister : Prop :=
  ∀ s : State,
    (∀ i : Fin 8, s.pc ≤ 254 →
      ∃ t, exec (.prn (regByte i)) s = .next t ∧ t.out = s.out ++ [.print (s.reg i)] ∧
        (Event.print (s.reg i)).render = decimal (s.reg i) ++ Config.lineEnd ∧
        t.pc = s.pc + 2 ∧ SameRegsExcept [] s t ∧ t.fl = s.fl ∧ t.status = s.status ∧ SameMemory s t) ∧
    (∀ r : Byte, s.pc = 255 →
      ∃ t, exec (.prn r) s = .next t ∧ FaultsPrecisely (.outOfRangeRead 256) [.diagOutOfRange] s t) ∧
    (∀ r : Byte, s.pc ≤ 254 → 7 < r.toNat →
      ∃ t, exec (.prn r) s = .next t ∧ FaultsPrecisely (.invalidRegisterIndex r) [] s t)

/-- HLT stops the loop and changes nothing else but pc, at every address, 255 included. The new pc is the spec's
decision D17. -/
def Obligations.HltHalts : Prop :=
  ∀ s : State,
    ∃ t, exec .hlt s = .next t ∧ t.status = .halted ∧ t.pc = s.pc + 1 ∧
      SameRegsExcept [] s t ∧ t.fl = s.fl ∧ t.out = s.out ∧ SameMemory s t

/-- MUL: the low 8 bits of `x[0] * x[1]` into `x[0]` for every two operand bytes. The reduction modulo 256 is the spec's
decision D1, the ignored operands D7, the fatal fetch D3, its preciseness D11 (log entry 10). -/
def Obligations.MulMultipliesRegisterZeroByOne : Prop :=
  ∀ (s : State) (u v : Byte),
    (s.pc ≤ 253 →
      ∃ t, exec (.mul u v) s = .next t ∧ (t.reg 0).toNat = ((s.reg 0).toNat * (s.reg 1).toNat) % 256 ∧
        SameRegsExcept [0] s t ∧ t.pc = s.pc + 3 ∧ t.fl = s.fl ∧ t.status = s.status ∧ t.out = s.out ∧
        SameMemory s t) ∧
    (s.pc = 254 ∨ s.pc = 255 →
      ∃ t, exec (.mul u v) s = .next t ∧ FaultsPrecisely (.outOfRangeRead 256) [.diagOutOfRange] s t)

/-- CMP (42_alu_mul_cmp.md R86): the whole flags byte becomes 1, 2 or 4, and nothing else changes but pc. The unsigned
comparison is the spec's decision D22; that the fatal cases are fatal is its decisions D3 and D5, their order (the fetches,
then operand1's index, then operand2's) D12, their preciseness D11 (log entry 10). -/
def Obligations.CmpSetsTheFlagsByte : Prop :=
  ∀ s : State,
    (∀ i j : Fin 8, s.pc ≤ 253 →
      ∃ t, exec (.cmp (regByte i) (regByte j)) s = .next t ∧
        ((s.reg i).toNat = (s.reg j).toNat → t.fl = 0x01#8) ∧
        ((s.reg i).toNat > (s.reg j).toNat → t.fl = 0x02#8) ∧
        ((s.reg i).toNat < (s.reg j).toNat → t.fl = 0x04#8) ∧
        SameRegsExcept [] s t ∧ t.pc = s.pc + 3 ∧ t.status = s.status ∧ t.out = s.out ∧ SameMemory s t) ∧
    (∀ a b : Byte, s.pc = 254 ∨ s.pc = 255 →
      ∃ t, exec (.cmp a b) s = .next t ∧ FaultsPrecisely (.outOfRangeRead 256) [.diagOutOfRange] s t) ∧
    (∀ a b : Byte, s.pc ≤ 253 → 7 < a.toNat →
      ∃ t, exec (.cmp a b) s = .next t ∧ FaultsPrecisely (.invalidRegisterIndex a) [] s t) ∧
    (∀ (i : Fin 8) (b : Byte), s.pc ≤ 253 → 7 < b.toNat →
      ∃ t, exec (.cmp (regByte i) b) s = .next t ∧ FaultsPrecisely (.invalidRegisterIndex b) [] s t)

/-- PUSH: the stack pointer is decremented modulo 256, then the register is stored at the new stack pointer; PUSH R7
stores the decremented value (the spec's decision D21). Every other cell reads as before. The fatal cases are its
decisions D3, D5, D11 and D12 (log entry 10). -/
def Obligations.PushStoresBelowTheStackPointer : Prop :=
  ∀ s : State,
    (∀ i : Fin 8, s.pc ≤ 254 →
      ∃ t, exec (.push (regByte i)) s = .next t ∧
        (pushAddr s).toNat = (if (s.reg 7).toNat = 0 then 255 else (s.reg 7).toNat - 1) ∧
        t.reg 7 = pushAddr s ∧ SameRegsExcept [7] s t ∧
        (s.mem.wf = true → t.mem.read (pushAddr s).toNat = if i = 7 then pushAddr s else s.reg i) ∧
        (∀ a : Nat, a ≠ (pushAddr s).toNat → t.mem.read a = s.mem.read a) ∧
        t.pc = s.pc + 2 ∧ t.fl = s.fl ∧ t.status = s.status ∧ t.out = s.out) ∧
    (∀ r : Byte, s.pc = 255 →
      ∃ t, exec (.push r) s = .next t ∧ FaultsPrecisely (.outOfRangeRead 256) [.diagOutOfRange] s t) ∧
    (∀ r : Byte, s.pc ≤ 254 → 7 < r.toNat →
      ∃ t, exec (.push r) s = .next t ∧ FaultsPrecisely (.invalidRegisterIndex r) [] s t)

/-- POP: the cell at the stack pointer goes to the register, then the stack pointer as it then stands is incremented
modulo 256; POP R7 increments the loaded value (the spec's decision D21). The fatal cases are its decisions D3, D5, D11
and D12 (log entry 10). -/
def Obligations.PopLoadsFromTheStackPointer : Prop :=
  ∀ s : State,
    (∀ i : Fin 8, s.pc ≤ 254 →
      ∃ t, exec (.pop (regByte i)) s = .next t ∧
        (i ≠ 7 → t.reg i = s.mem.read (s.reg 7).toNat ∧ (t.reg 7).toNat = ((s.reg 7).toNat + 1) % 256) ∧
        (i = 7 → (t.reg 7).toNat = ((s.mem.read (s.reg 7).toNat).toNat + 1) % 256) ∧
        SameRegsExcept [i.val, 7] s t ∧ SameMemory s t ∧
        t.pc = s.pc + 2 ∧ t.fl = s.fl ∧ t.status = s.status ∧ t.out = s.out) ∧
    (∀ r : Byte, s.pc = 255 →
      ∃ t, exec (.pop r) s = .next t ∧ FaultsPrecisely (.outOfRangeRead 256) [.diagOutOfRange] s t) ∧
    (∀ r : Byte, s.pc ≤ 254 → 7 < r.toNat →
      ∃ t, exec (.pop r) s = .next t ∧ FaultsPrecisely (.invalidRegisterIndex r) [] s t)

/-- JMP (44_jumps.md R95): pc becomes the register's value, no length added, and nothing else changes. That the two fatal
cases are fatal, the first with a DiagOutOfRange event, is the spec's decisions D3 and D5 (20_memory.md R31), that they are
precise its decision D11 (60_exceptions.md R106), that the fetch's comes first D12 (log entry 10). -/
def Obligations.JmpSetsPcFromItsRegister : Prop :=
  ∀ s : State,
    (∀ i : Fin 8, s.pc ≤ 254 →
      ∃ t, exec (.jmp (regByte i)) s = .next t ∧ t.pc = (s.reg i).toNat ∧ t.pc ≤ 255 ∧
        SameRegsExcept [] s t ∧ t.fl = s.fl ∧ t.status = s.status ∧ t.out = s.out ∧ SameMemory s t) ∧
    (∀ r : Byte, s.pc = 255 →
      ∃ t, exec (.jmp r) s = .next t ∧ FaultsPrecisely (.outOfRangeRead 256) [.diagOutOfRange] s t) ∧
    (∀ r : Byte, s.pc ≤ 254 → 7 < r.toNat →
      ∃ t, exec (.jmp r) s = .next t ∧ FaultsPrecisely (.invalidRegisterIndex r) [] s t)

/-- JEQ: bit 0 of the flags decides; a jump that is not taken advances by 2 whatever its operand byte and wherever it
stands (the spec's decision D15). The fatal cases are its decisions D3, D5, D11 and D12 (log entry 10). -/
def Obligations.JeqJumpsWhenEqualIsSet : Prop :=
  ∀ s : State,
    (∀ i : Fin 8, s.fl.getLsbD 0 = true → s.pc ≤ 254 →
      ∃ t, exec (.jeq (regByte i)) s = .next t ∧ t.pc = (s.reg i).toNat ∧
        SameRegsExcept [] s t ∧ t.fl = s.fl ∧ t.status = s.status ∧ t.out = s.out ∧ SameMemory s t) ∧
    (∀ r : Byte, s.fl.getLsbD 0 = false →
      ∃ t, exec (.jeq r) s = .next t ∧ t.pc = s.pc + 2 ∧
        SameRegsExcept [] s t ∧ t.fl = s.fl ∧ t.status = s.status ∧ t.out = s.out ∧ SameMemory s t) ∧
    (∀ r : Byte, s.fl.getLsbD 0 = true → s.pc = 255 →
      ∃ t, exec (.jeq r) s = .next t ∧ FaultsPrecisely (.outOfRangeRead 256) [.diagOutOfRange] s t) ∧
    (∀ r : Byte, s.fl.getLsbD 0 = true → s.pc ≤ 254 → 7 < r.toNat →
      ∃ t, exec (.jeq r) s = .next t ∧ FaultsPrecisely (.invalidRegisterIndex r) [] s t)

/-- JNE: the complement of JEQ (the spec's decision D15 for the jump that is not taken). The fatal cases are its decisions
D3, D5, D11 and D12 (log entry 10). -/
def Obligations.JneJumpsWhenEqualIsClear : Prop :=
  ∀ s : State,
    (∀ i : Fin 8, s.fl.getLsbD 0 = false → s.pc ≤ 254 →
      ∃ t, exec (.jne (regByte i)) s = .next t ∧ t.pc = (s.reg i).toNat ∧
        SameRegsExcept [] s t ∧ t.fl = s.fl ∧ t.status = s.status ∧ t.out = s.out ∧ SameMemory s t) ∧
    (∀ r : Byte, s.fl.getLsbD 0 = true →
      ∃ t, exec (.jne r) s = .next t ∧ t.pc = s.pc + 2 ∧
        SameRegsExcept [] s t ∧ t.fl = s.fl ∧ t.status = s.status ∧ t.out = s.out ∧ SameMemory s t) ∧
    (∀ r : Byte, s.fl.getLsbD 0 = false → s.pc = 255 →
      ∃ t, exec (.jne r) s = .next t ∧ FaultsPrecisely (.outOfRangeRead 256) [.diagOutOfRange] s t) ∧
    (∀ r : Byte, s.fl.getLsbD 0 = false → s.pc ≤ 254 → 7 < r.toNat →
      ∃ t, exec (.jne r) s = .next t ∧ FaultsPrecisely (.invalidRegisterIndex r) [] s t)

/-! ### The step -/

/-- A step runs the decoded instruction: a running core whose three bytes at pc lie in memory and decode to an
instruction steps exactly as that instruction's handler does. The loop adds nothing around it. -/
def Obligations.StepRunsTheDecodedInstruction : Prop :=
  ∀ (s : State) (i : Instr) (rest : List Byte),
    s.status = .running → s.pc ≤ 253 →
      decode [s.mem.read s.pc, s.mem.read (s.pc + 1), s.mem.read (s.pc + 2)] = .ok (i, rest) →
        step s = exec i s

/-- The same at every pc inside memory, the last two addresses included: for any bytes in place of those that would lie
past address 255, the step is the handler's. So no step depends on a byte that does not exist (log entry 1). -/
def Obligations.StepNeverUsesBytesPastMemory : Prop :=
  ∀ (s : State) (b0 b1 b2 : Byte) (i : Instr) (rest : List Byte),
    s.status = .running → s.pc ≤ 255 → b0 = s.mem.read s.pc →
      (s.pc + 1 ≤ 255 → b1 = s.mem.read (s.pc + 1)) → (s.pc + 2 ≤ 255 → b2 = s.mem.read (s.pc + 2)) →
        decode [b0, b1, b2] = .ok (i, rest) → step s = exec i s

/-- A step on an unrecognised opcode reports it and changes nothing else, so the run stays there for ever, one more
report for each step (60_exceptions.md R102). -/
def Obligations.UnrecognizedOpcodeLoopsForEver : Prop :=
  ∀ (s : State), s.status = .running → s.pc ≤ 255 → isOpcode (s.mem.read s.pc) = false →
    step s = .next { s with out := s.out ++ [.diagUnrecognizedOpcode] } ∧
    ∀ n : Nat, Sys2Proof.core.run n s =
      .next { s with out := s.out ++ List.replicate n .diagUnrecognizedOpcode }

/-- An opcode fetch past address 255 reports and is fatal at that address (the spec's decision D3), precisely (its decision
D11; log entry 10). -/
def Obligations.OpcodeFetchPastMemoryIsFatal : Prop :=
  ∀ s : State, s.status = .running → 255 < s.pc →
    ∃ t, step s = .next t ∧ FaultsPrecisely (.outOfRangeRead (s.pc : Int)) [.diagOutOfRange] s t

/-- A step is taken while the status is Running, always, and never otherwise; it leads only to Running, Halted or
Faulted (the four status values are the spec's decision D9). What a step in another status answers is the model's
choice, log entry 3. -/
def Obligations.StepsExactlyWhileRunning : Prop :=
  ∀ s : State,
    (s.status = .running →
      ∃ t, step s = .next t ∧ (t.status = .running ∨ t.status = .halted ∨ ∃ c, t.status = .faulted c)) ∧
    (s.status = .idle → step s = .fault .notStarted) ∧
    (s.status = .halted → step s = .fault .halted) ∧
    (∀ c, s.status = .faulted c → step s = .fault (.faulted c))

/-- Every instruction, with every operand byte, in every state, answers a next state: no fault and no refusal. This is the
model's choice, log entry 3: a fatal condition is answered as a next state with status Faulted (DEDUCED), and exec does not
look at the status it starts from (DESIGN CHOICE). -/
def Obligations.EveryInstructionAnswersANextState : Prop :=
  ∀ (i : Instr) (s : State), ∃ t, exec i s = .next t

/-- HLT is the only way to Halted: a step ends Halted exactly when the byte at pc is 0x01 (the status values are the
spec's decision D9). -/
def Obligations.OnlyHltHalts : Prop :=
  ∀ s t : State, step s = .next t → (t.status = .halted ↔ s.pc ≤ 255 ∧ s.mem.read s.pc = 0x01#8)

/-- A fatal condition leaves memory, registers, flags and pc as they were, and `out` gains at most the report of a failed
read (the spec's decision D11). -/
def Obligations.FatalConditionsArePrecise : Prop :=
  ∀ (s t : State) (c : Condition), step s = .next t → t.status = .faulted c →
    (∃ addr : Int, 255 < addr ∧ c = .outOfRangeRead addr ∧ FaultsPrecisely c [.diagOutOfRange] s t) ∨
    (∃ b : Byte, 7 < b.toNat ∧ c = .invalidRegisterIndex b ∧ FaultsPrecisely c [] s t)

/-! ### Whole-machine rules -/

/-- Every step keeps the invariant: memory canonical, pc at most 257, flags 0, 1, 2 or 4, and only fatal conditions a
program can raise (those bounds are the spec's derivations in 10_state.md R16 and R20 and 20_memory.md R34). -/
def Obligations.StepKeepsTheInvariant : Prop := ∀ s t : State, Inv s → step s = .next t → Inv t

/-- The reset state meets the invariant. -/
def Obligations.ResetMeetsTheInvariant : Prop := Inv State.reset

/-- Every accepted command of the host keeps the invariant of the core it drives. -/
def Obligations.HostCommandsKeepTheInvariant : Prop :=
  ∀ (u v : Session) (c : Command), Inv u.core → u.command c = .ok v → Inv v.core

/-- Every instruction touches only the registers 10_state.md R15 lists for it: it leaves every register it does not
write, and what it does to everything else is the same whatever a register holds that it does not read. Registers 5 and
6 are no exception. -/
def Obligations.RegistersTouchedAreThoseListed : Prop :=
  ∀ (i : Instr) (s t : State), exec i s = .next t →
    SameRegsExcept (regsWritten i) s t ∧
    ∀ (k : Fin 8) (v : Byte), k.val ∉ regsRead (s.fl.getLsbD 0) i →
      ∃ u, exec i (s.setReg k v) = .next u ∧ AgreeExceptReg k t u

/-- The flags byte is written only by CMP, which overwrites it whole, and of it only bit 0 is ever read. -/
def Obligations.FlagsAreWrittenByCmpAndReadInBitZero : Prop :=
  ∀ (s : State) (f : Byte),
    (∀ (i : Instr) (t : State), (∀ a b, i ≠ .cmp a b) → exec i s = .next t →
      t.fl = s.fl ∧ (f.getLsbD 0 = s.fl.getLsbD 0 → exec i (s.setFl f) = .next (t.setFl f))) ∧
    (∀ i j : Fin 8, s.pc ≤ 253 → exec (.cmp (regByte i) (regByte j)) (s.setFl f) = exec (.cmp (regByte i) (regByte j)) s)

/-- The only cell a step can change is the one PUSH stores to. -/
def Obligations.OnlyPushWritesMemory : Prop :=
  ∀ (s t : State) (a : Nat), step s = .next t → t.mem.read a ≠ s.mem.read a →
    s.pc ≤ 255 ∧ s.mem.read s.pc = 0x45#8 ∧ a = (pushAddr s).toNat

/-- `out` only grows, by at most one event a step, each kind from its own source, and no step reads it
(10_state.md R22). That DiagOutOfRange comes only with a step that ends Faulted by OutOfRangeRead is the spec's decision D3
(log entry 10). -/
def Obligations.OutputIsAppendOnlyAndNeverRead : Prop :=
  ∀ (s t : State) (o : List Event), step s = .next t →
    ∃ events : List Event, t.out = s.out ++ events ∧ events.length ≤ 1 ∧
      (∀ v, Event.print v ∈ events →
        s.mem.read s.pc = 0x47#8 ∧ ∃ i : Fin 8, s.mem.read (s.pc + 1) = regByte i ∧ v = s.reg i) ∧
      (Event.diagOutOfRange ∈ events → ∃ addr : Int, 255 < addr ∧ t.status = .faulted (.outOfRangeRead addr)) ∧
      (Event.diagUnrecognizedOpcode ∈ events → s.pc ≤ 255 ∧ isOpcode (s.mem.read s.pc) = false) ∧
      step { s with out := o } = .next { t with out := o ++ events }

/-- A safe run (one that meets neither a fatal condition nor an unrecognised opcode) prints no diagnostic. -/
def Obligations.SafeRunsPrintNoDiagnostic : Prop :=
  ∀ (k : Nat) (s t : State), SafeRun k s → Sys2Proof.core.run k s = .next t →
    ∃ events : List Event, t.out = s.out ++ events ∧ ∀ e ∈ events, ∃ v, e = .print v

/-! ### Rules about more than one instruction -/

/-- MUL ignores its operand bytes, and they must be there: it is 3 bytes long (70_reset_and_hazards.md R129). The ignored
operands are the spec's decision D7 and the product modulo 256 its decision D1 (log entry 10); that fewer bytes answer
`cutShort` is the model's own decoder (the spec decodes no cut-off list of bytes). -/
def Obligations.MulIgnoresItsOperandBytes : Prop :=
  ∀ (s : State) (u v u' v' : Byte),
    exec (.mul u v) s = exec (.mul u' v') s ∧ (encode (.mul u v)).length = 3 ∧
    decode [0xA2#8] = .error (.cutShort 0xA2#8) ∧ decode [0xA2#8, u] = .error (.cutShort 0xA2#8) ∧
    (s.pc ≤ 253 → ∃ t, exec (.mul u v) s = .next t ∧ t.reg 0 = s.reg 0 * s.reg 1 ∧ SameRegsExcept [0] s t ∧
      t.pc = s.pc + 3)

/-- JEQ and JNE on the same flags are exact complements: one does what JMP does, the other only advances by 2. -/
def Obligations.ConditionalJumpsAreComplements : Prop :=
  ∀ (s : State) (r : Byte),
    (s.fl.getLsbD 0 = true ∧ exec (.jeq r) s = exec (.jmp r) s ∧ exec (.jne r) s = .next (s.advance 2)) ∨
    (s.fl.getLsbD 0 = false ∧ exec (.jne r) s = exec (.jmp r) s ∧ exec (.jeq r) s = .next (s.advance 2))

/-- CMP then JEQ jumps exactly when the registers were equal, CMP then JNE exactly when they were not; otherwise pc
advances by 2. Two steps of the machine over the bytes in memory. -/
def Obligations.CompareThenBranch : Prop :=
  ∀ (s : State) (i j k : Fin 8),
    s.status = .running → s.pc ≤ 251 → s.mem.read s.pc = 0xA7#8 → s.mem.read (s.pc + 1) = regByte i →
    s.mem.read (s.pc + 2) = regByte j → s.mem.read (s.pc + 4) = regByte k →
      (s.mem.read (s.pc + 3) = 0x55#8 →
        ∃ t, Sys2Proof.core.run 2 s = .next t ∧ t.status = .running ∧
          t.pc = if s.reg i = s.reg j then (s.reg k).toNat else s.pc + 3 + 2) ∧
      (s.mem.read (s.pc + 3) = 0x56#8 →
        ∃ t, Sys2Proof.core.run 2 s = .next t ∧ t.status = .running ∧
          t.pc = if s.reg i = s.reg j then s.pc + 3 + 2 else (s.reg k).toNat)

/-- PUSH then POP: into the same register it changes no register, the stack pointer included, for every register and
every stack pointer; into another register it moves the pushed byte. Only the stack slot of memory changes. With
register 7 the results follow the spec's decision D21. -/
def Obligations.PushThenPop : Prop :=
  ∀ (s : State) (i j : Fin 8), s.mem.wf = true → s.pc ≤ 252 →
    ∃ u t, exec (.push (regByte i)) s = .next u ∧ exec (.pop (regByte j)) u = .next t ∧ t.pc = s.pc + 4 ∧
      (i = j → SameRegsExcept [] s t) ∧
      (j ≠ 7 → t.reg j = (if i = 7 then s.reg 7 - 1 else s.reg i) ∧ SameRegsExcept [j.val] s t) ∧
      (j = 7 → i ≠ 7 → t.reg 7 = s.reg i + 1 ∧ SameRegsExcept [7] s t) ∧
      (∀ a : Nat, a ≠ (pushAddr s).toNat → t.mem.read a = s.mem.read a)

/-- A store is seen by the very next fetch: a PUSH onto the cell right after itself makes the next step run whatever
instruction the pushed byte begins (20_memory.md section 7). -/
def Obligations.StoreIsSeenByTheNextFetch : Prop :=
  ∀ (s : State) (i : Fin 8) (next : Instr) (rest : List Byte),
    s.status = .running → s.mem.wf = true → s.pc ≤ 251 → i ≠ 7 →
    s.mem.read s.pc = 0x45#8 → s.mem.read (s.pc + 1) = regByte i → (pushAddr s).toNat = s.pc + 2 →
    decode [s.reg i, s.mem.read (s.pc + 3), s.mem.read (s.pc + 4)] = .ok (next, rest) →
      ∃ t, step s = .next t ∧ t.pc = s.pc + 2 ∧ step t = exec next t

/-- Pushing registers one after another fills the cells below the stack pointer downward, the first pushed highest, and
moves the stack pointer down by their number, modulo 256; every other cell reads as before. -/
def Obligations.PushesFillTheStackDownward : Prop :=
  ∀ (pushed : List (Fin 8)) (s : State),
    s.mem.wf = true → (∀ i ∈ pushed, i ≠ 7) → s.pc + 2 * pushed.length ≤ 256 →
      ∃ t, execAll (pushed.map fun i => Instr.push (regByte i)) s = .next t ∧
        t.reg 7 = s.reg 7 - BitVec.ofNat 8 pushed.length ∧ SameRegsExcept [7] s t ∧
        t.pc = s.pc + 2 * pushed.length ∧
        (∀ (n : Nat) (i : Fin 8), pushed[n]? = some i →
          t.mem.read (s.reg 7 - BitVec.ofNat 8 (n + 1)).toNat = s.reg i) ∧
        ∀ a : Nat, (∀ n < pushed.length, a ≠ (s.reg 7 - BitVec.ofNat 8 (n + 1)).toNat) →
          t.mem.read a = s.mem.read a

/-! ### The ALU unit and the flags -/

/-- The ALU's ADD and SUB, which no instruction reaches: sum and non-negative remainder modulo 256 (the spec's
decision D1), no flag, no other register. -/
def Obligations.AluAddAndSubWrap : Prop :=
  ∀ (s : State) (a b : Fin 8),
    (∃ t, alu .add a b s = .value t ∧ (t.reg a).toNat = ((s.reg a).toNat + (s.reg b).toNat) % 256 ∧
      SameRegsExcept [a.val] s t ∧ t.fl = s.fl ∧ t.pc = s.pc ∧ t.status = s.status ∧ t.out = s.out ∧
      SameMemory s t) ∧
    (∃ t, alu .sub a b s = .value t ∧
      ((t.reg a).toNat : Int) = (((s.reg a).toNat : Int) - ((s.reg b).toNat : Int)) % 256 ∧
      SameRegsExcept [a.val] s t ∧ t.fl = s.fl ∧ t.pc = s.pc ∧ t.status = s.status ∧ t.out = s.out ∧
      SameMemory s t)

/-- An ALU selector outside ADD, SUB, CMP is fatal, and no step of any program raises it (60_exceptions.md R103). The
numbering of selectors is the model's own (log entry 8, DESIGN CHOICE); that the fatal state is precise is the spec's
decision D11 (60_exceptions.md R106, log entry 10). -/
def Obligations.UnsupportedAluOperationIsFatalAndUnreachable : Prop :=
  (∀ (n : Nat) (a b : Fin 8) (s : State),
    ∃ t, alu (.other n) a b s = .raised t ∧ FaultsPrecisely (.unsupportedALUOperation n) [] s t) ∧
  (∀ (s t : State) (n : Nat), step s = .next t → t.status ≠ .faulted (.unsupportedALUOperation n))

/-- The bits CMP leaves in the flags byte: bit 0 Equal, bit 1 Greater-Than, bit 2 Less-Than, bits 7 to 3 never set
(10_state.md R19). -/
def Obligations.FlagBitsAfterCompare : Prop :=
  ∀ (s : State) (i j : Fin 8), s.pc ≤ 253 →
    ∃ t, exec (.cmp (regByte i) (regByte j)) s = .next t ∧
      (t.fl.getLsbD 0 = true ↔ s.reg i = s.reg j) ∧
      (t.fl.getLsbD 1 = true ↔ (s.reg i).toNat > (s.reg j).toNat) ∧
      (t.fl.getLsbD 2 = true ↔ (s.reg i).toNat < (s.reg j).toNat) ∧
      ∀ n, 3 ≤ n → t.fl.getLsbD n = false

/-! ### The console port and the host -/

/-- A printed byte is its decimal numeral, 0 to 255, at least one digit, digits only and no leading zero, then a line end; the
unrecognised-opcode text contains its phrase; events keep their order in the text. The texts left open are constants
without a value (log entry 7; the spec's decision D13). -/
def Obligations.PrintedTextIsTheDecimalNumeral : Prop :=
  (∀ v : Byte, (Event.print v).render = decimal v ++ Config.lineEnd ∧ decimal v ≠ [] ∧
    (decimal v).foldl (fun n c => 10 * n + (c.toNat - 48)) 0 = v.toNat ∧
    (∀ c ∈ decimal v, 48 ≤ c.toNat ∧ c.toNat ≤ 57) ∧
    ((decimal v).head? = some '0' → decimal v = ['0'])) ∧
  (∃ before after : List Char,
    Event.diagUnrecognizedOpcode.render = before ++ "not a valid instruction".toList ++ after) ∧
  (∀ p q : List Event, renderOut (p ++ q) = renderOut p ++ renderOut q)

/-- A load after reset installs 0 to 256 bytes from address 0 and changes nothing else; any other sequence is refused (the
spec's decision D10) and launches nothing; a second load is refused, and so is a start with none. Reset, load, start give
the launch state. Where the record of the one load stands, and that a start without one is refused, are log entry 5. -/
def Obligations.LoadInstallsTheProgram : Prop :=
  (∀ program : List Nat,
    (program.length ≤ 256 → (∀ b ∈ program, b ≤ 255) →
      ∃ u, Session.afterReset.command (.load program) = .ok u ∧
        (∀ a : Nat, (u.core.mem.read a).toNat = program.getD a 0) ∧
        u.core.x = State.reset.x ∧ u.core.fl = 0#8 ∧ u.core.pc = 0 ∧ u.core.status = .idle ∧ u.core.out = [] ∧
        (∀ p, ∃ e, u.command (.load p) = .error e) ∧
        launch program = .ok { u.core with status := .running } ∧
        ∃ w, u.command .start = .ok w ∧ launch program = .ok w.core) ∧
    (256 < program.length ∨ (∃ b ∈ program, 255 < b) →
      (∃ e, Session.afterReset.command (.load program) = .error e) ∧ ∃ e, launch program = .error e) ∧
    (∀ u : Session, u.core.status ≠ .idle → ∃ e, u.command (.load program) = .error e)) ∧
  (∀ u : Session, u.loaded = true → ∀ program, ∃ e, u.command (.load program) = .error e) ∧
  (∀ u : Session, u.loaded = false → ∃ e, u.command .start = .error e)

/-- Start is accepted only in Idle and sets the status to Running and nothing else; the core then takes steps until it is
no longer Running, and the host does nothing to it meanwhile; the first fetch is at address 0
(70_reset_and_hazards.md R122). The model's own: every command, reset included, is refused while the status is Running (log
entry 11, DESIGN CHOICE), and a start is accepted only after the one load, refused without it (log entry 5, DEDUCED from
R121). -/
def Obligations.StartRunsTheCore : Prop :=
  (∀ u : Session, u.core.status = .idle → u.loaded = true →
    u.command .start = .ok { u with core := { u.core with status := .running } }) ∧
  (∀ u : Session, u.core.status ≠ .idle ∨ u.loaded = false → ∃ e, u.command .start = .error e) ∧
  (∀ s : State, s.status = .running → ∃ t, step s = .next t) ∧
  (∀ (u : Session) (c : Command), u.core.status = .running → ∃ e, u.command c = .error e) ∧
  (∀ (program : List Nat) (t : State), launch program = .ok t → t.status = .running ∧ t.pc = 0)

/-- The state after reset. The zeros of `x[0]` to `x[6]` and of the flags are the spec's decision D8, Idle its decision
D9 (log entry 6). -/
def Obligations.ResetState : Prop :=
  (∀ a : Nat, State.reset.mem.read a = 0x00#8) ∧ State.reset.reg 7 = 0xF4#8 ∧
  (∀ k : Fin 8, k ≠ 7 → State.reset.reg k = 0x00#8) ∧ State.reset.fl = 0x00#8 ∧ State.reset.pc = 0 ∧
  State.reset.status = .idle ∧ State.reset.out = []

/-- Halted and Faulted are left only by reset: no step, no load and no start goes on from them, and reset gives the
reset state (the spec's decision D20). -/
def Obligations.OnlyResetLeavesHaltedAndFaulted : Prop :=
  ∀ u : Session, (u.core.status = .halted ∨ ∃ c, u.core.status = .faulted c) →
    (∀ t, step u.core ≠ .next t) ∧ (∀ p, ∃ e, u.command (.load p) = .error e) ∧
    (∃ e, u.command .start = .error e) ∧ ∃ v, u.command .reset = .ok v ∧ v.core = State.reset
end

