-- ==== Sys2Proof/Laws/Decode.lean ====
section
/-! SUPPORT. The decoder's small lemmas: what each opcode byte decodes to, and what a byte outside the map does. -/

namespace Sys2Proof

theorem decode_ldi (r imm : Byte) (rest : List Byte) : decode (0x82#8 :: r :: imm :: rest) = .ok (.ldi r imm, rest) := rfl
theorem decode_prn (r : Byte) (rest : List Byte) : decode (0x47#8 :: r :: rest) = .ok (.prn r, rest) := rfl
theorem decode_mul (u v : Byte) (rest : List Byte) : decode (0xA2#8 :: u :: v :: rest) = .ok (.mul u v, rest) := rfl
theorem decode_hlt (rest : List Byte) : decode (0x01#8 :: rest) = .ok (.hlt, rest) := rfl
theorem decode_push (r : Byte) (rest : List Byte) : decode (0x45#8 :: r :: rest) = .ok (.push r, rest) := rfl
theorem decode_pop (r : Byte) (rest : List Byte) : decode (0x46#8 :: r :: rest) = .ok (.pop r, rest) := rfl
theorem decode_cmp (a b : Byte) (rest : List Byte) : decode (0xA7#8 :: a :: b :: rest) = .ok (.cmp a b, rest) := rfl
theorem decode_jne (r : Byte) (rest : List Byte) : decode (0x56#8 :: r :: rest) = .ok (.jne r, rest) := rfl
theorem decode_jeq (r : Byte) (rest : List Byte) : decode (0x55#8 :: r :: rest) = .ok (.jeq r, rest) := rfl
theorem decode_jmp (r : Byte) (rest : List Byte) : decode (0x54#8 :: r :: rest) = .ok (.jmp r, rest) := rfl

/-- The map's row for an opcode byte: one of the ten, or none. -/
theorem opcodeMap_find (op : Byte) :
    opcodeMap.find? (fun row => row.code == op) =
      if op = 0x82#8 then some ⟨0x82#8, .twoOperands .ldi⟩
      else if op = 0x47#8 then some ⟨0x47#8, .oneOperand .prn⟩
      else if op = 0xA2#8 then some ⟨0xA2#8, .twoOperands .mul⟩
      else if op = 0x01#8 then some ⟨0x01#8, .noOperand .hlt⟩
      else if op = 0x45#8 then some ⟨0x45#8, .oneOperand .push⟩
      else if op = 0x46#8 then some ⟨0x46#8, .oneOperand .pop⟩
      else if op = 0xA7#8 then some ⟨0xA7#8, .twoOperands .cmp⟩
      else if op = 0x56#8 then some ⟨0x56#8, .oneOperand .jne⟩
      else if op = 0x55#8 then some ⟨0x55#8, .oneOperand .jeq⟩
      else if op = 0x54#8 then some ⟨0x54#8, .oneOperand .jmp⟩
      else none := by
  by_cases h0 : op = 0x82#8
  · subst h0; rfl
  by_cases h1 : op = 0x47#8
  · subst h1; rfl
  by_cases h2 : op = 0xA2#8
  · subst h2; rfl
  by_cases h3 : op = 0x01#8
  · subst h3; rfl
  by_cases h4 : op = 0x45#8
  · subst h4; rfl
  by_cases h5 : op = 0x46#8
  · subst h5; rfl
  by_cases h6 : op = 0xA7#8
  · subst h6; rfl
  by_cases h7 : op = 0x56#8
  · subst h7; rfl
  by_cases h8 : op = 0x55#8
  · subst h8; rfl
  by_cases h9 : op = 0x54#8
  · subst h9; rfl
  simp only [opcodeMap, List.find?, beq_eq_false_iff_ne.mpr (Ne.symm h0), beq_eq_false_iff_ne.mpr (Ne.symm h1), beq_eq_false_iff_ne.mpr (Ne.symm h2), beq_eq_false_iff_ne.mpr (Ne.symm h3), beq_eq_false_iff_ne.mpr (Ne.symm h4), beq_eq_false_iff_ne.mpr (Ne.symm h5), beq_eq_false_iff_ne.mpr (Ne.symm h6), beq_eq_false_iff_ne.mpr (Ne.symm h7), beq_eq_false_iff_ne.mpr (Ne.symm h8), beq_eq_false_iff_ne.mpr (Ne.symm h9),
    if_neg h0, if_neg h1, if_neg h2, if_neg h3, if_neg h4, if_neg h5, if_neg h6, if_neg h7, if_neg h8, if_neg h9]

end Sys2Proof
end

