-- ==== Sys2Proof/Laws/Memory.lean ====
section
/-! SUPPORT. Memory's laws: a read after a write, and the canonical form every memory operation keeps. -/

namespace Sys2Proof.Machine.Memory

theorem read_consCell_other {a b : Nat} (v : Byte) (m : Memory) (h : b ≠ a) : (consCell a v m).read b = m.read b := by
  unfold consCell
  split
  · rfl
  · simp [read, h]

/-- A write leaves every other cell alone, whatever the form of the list. -/
theorem read_write_other {a b : Nat} (m : Memory) (v : Byte) (h : b ≠ a) : (m.write a v).read b = m.read b := by
  induction m with
  | nil => exact read_consCell_other v [] h
  | cons p rest ih =>
    obtain ⟨c, w⟩ := p
    simp only [write]
    split
    · exact read_consCell_other v _ h
    · split
      · rename_i hac
        subst hac
        rw [read_consCell_other v _ h]
        simp [read, h]
      · simp only [read, ih]

theorem wfFrom_mono {lo lo' : Nat} {m : Memory} (h : wfFrom lo m = true) (hl : lo' ≤ lo) : wfFrom lo' m = true := by
  cases m with
  | nil => rfl
  | cons p rest =>
    simp only [wfFrom, Bool.and_eq_true, decide_eq_true_eq] at h ⊢
    exact ⟨⟨⟨by omega, h.1.1.2⟩, h.1.2⟩, h.2⟩

/-- Below its first address a canonical list reads as reset. -/
theorem read_below {lo a : Nat} {m : Memory} (h : wfFrom lo m = true) (ha : a < lo) : m.read a = Config.memReset := by
  induction m generalizing lo with
  | nil => rfl
  | cons p rest ih =>
    simp only [wfFrom, Bool.and_eq_true, decide_eq_true_eq] at h
    have hne : a ≠ p.1 := by omega
    simp only [read, if_neg hne]
    exact ih h.2 (by omega)

theorem read_consCell_same {a lo : Nat} {v : Byte} {m : Memory} (h : wfFrom lo m = true) (ha : a < lo) :
    (consCell a v m).read a = v := by
  unfold consCell
  split
  · rename_i hv
    rw [read_below h ha, hv]
  · simp [read]

theorem read_write_same_from {lo a : Nat} {m : Memory} (v : Byte) (h : wfFrom lo m = true) :
    (m.write a v).read a = v := by
  induction m generalizing lo with
  | nil => exact read_consCell_same (lo := a + 1) rfl (by omega)
  | cons p rest ih =>
    obtain ⟨b, w⟩ := p
    have h' := h
    simp only [wfFrom, Bool.and_eq_true, decide_eq_true_eq] at h'
    simp only [write]
    split
    · exact read_consCell_same (lo := b) (by simp [wfFrom, h'.1.1.2, h'.1.2, h'.2]) ‹_›
    · split
      · rename_i hab
        subst hab
        exact read_consCell_same (lo := a + 1) h'.2 (by omega)
      · simp only [read, if_neg ‹¬ a = b›]
        exact ih h'.2

/-- A cell reads as what was last written to it. -/
theorem read_write_same {a : Nat} {m : Memory} (v : Byte) (h : m.wf = true) : (m.write a v).read a = v :=
  read_write_same_from v h

theorem wfFrom_consCell {lo a : Nat} {v : Byte} {m : Memory} (h : wfFrom (a + 1) m = true) (hlo : lo ≤ a)
    (ha : a < 256) : wfFrom lo (consCell a v m) = true := by
  unfold consCell
  split
  · exact wfFrom_mono h (by omega)
  · rename_i hv
    simp [wfFrom, hlo, ha, hv, h]

theorem wfFrom_write {lo a : Nat} {m : Memory} (v : Byte) (h : wfFrom lo m = true) (hlo : lo ≤ a) (ha : a < 256) :
    wfFrom lo (m.write a v) = true := by
  induction m generalizing lo with
  | nil => exact wfFrom_consCell rfl hlo ha
  | cons p rest ih =>
    obtain ⟨b, w⟩ := p
    have h' := h
    simp only [wfFrom, Bool.and_eq_true, decide_eq_true_eq] at h'
    simp only [write]
    split
    · refine wfFrom_consCell ?_ hlo ha
      simp only [wfFrom, Bool.and_eq_true, decide_eq_true_eq]
      exact ⟨⟨⟨by omega, h'.1.1.2⟩, h'.1.2⟩, h'.2⟩
    · split
      · rename_i hab
        subst hab
        exact wfFrom_consCell h'.2 hlo ha
      · simp only [wfFrom, Bool.and_eq_true, decide_eq_true_eq]
        exact ⟨⟨⟨h'.1.1.1, h'.1.1.2⟩, h'.1.2⟩, ih h'.2 (by omega)⟩

/-- A write to a cell keeps the canonical form. -/
theorem wf_write {a : Nat} {m : Memory} (v : Byte) (h : m.wf = true) (ha : a < 256) : (m.write a v).wf = true :=
  wfFrom_write v h (Nat.zero_le a) ha

theorem wf_nil : wf [] = true := rfl

/-- Storing bytes keeps the canonical form: a byte past the last cell is dropped. -/
theorem wf_storeBytes {m : Memory} (a : Nat) (bs : List Byte) (h : m.wf = true) : (storeBytes m a bs).wf = true := by
  induction bs generalizing m a with
  | nil => exact h
  | cons b rest ih =>
    simp only [storeBytes]
    split
    · exact ih _ (wf_write b h ‹_›)
    · exact h

/-- What memory reads as after bytes are stored from an address on. -/
theorem read_storeBytes {m : Memory} (a : Nat) (bs : List Byte) (h : m.wf = true) (hfit : a + bs.length ≤ 256) (c : Nat) :
    (storeBytes m a bs).read c = if a ≤ c then bs.getD (c - a) (m.read c) else m.read c := by
  induction bs generalizing m a with
  | nil => simp [storeBytes]
  | cons b rest ih =>
    simp only [List.length_cons] at hfit
    have hlt : a < Config.memCells := by simp only [Config.memCells]; omega
    rw [storeBytes, if_pos hlt, ih (a + 1) (wf_write b h hlt) (by omega)]
    by_cases hc : c = a
    · subst hc
      simp [read_write_same b h]
    · rw [read_write_other m b hc]
      by_cases hle : a ≤ c
      · have hsub : c - a = (c - (a + 1)) + 1 := by omega
        have hle' : a + 1 ≤ c := by omega
        rw [if_pos hle, if_pos hle', hsub]
        simp
      · have hle' : ¬ a + 1 ≤ c := by omega
        rw [if_neg hle, if_neg hle']

end Sys2Proof.Machine.Memory
end

