-- ==== Sys2Proof/Laws/State.lean ====
section
/-! SUPPORT. What each named update of the state leaves in each field, and the register file's read-after-write law. -/

namespace Sys2Proof.Machine

theorem RegFile.get_set (x : RegFile) (i j : Fin 8) (v : Byte) :
    (x.set i v).get j = if j = i then v else x.get j := by
  fin_cases i <;> fin_cases j <;> rfl

theorem RegFile.ext_get {x y : RegFile} (h : ∀ i, x.get i = y.get i) : x = y := by
  cases x; cases y
  have h0 := h 0; have h1 := h 1; have h2 := h 2; have h3 := h 3
  have h4 := h 4; have h5 := h 5; have h6 := h 6; have h7 := h 7
  simp only [RegFile.get] at h0 h1 h2 h3 h4 h5 h6 h7
  subst h0 h1 h2 h3 h4 h5 h6 h7
  rfl

namespace State

variable (s : State) (i j : Fin 8) (v : Byte) (n : Nat) (t : Status) (e : Event) (c : Condition)

@[simp] theorem setReg_mem : (s.setReg i v).mem = s.mem := rfl
@[simp] theorem setReg_fl : (s.setReg i v).fl = s.fl := rfl
@[simp] theorem setReg_pc : (s.setReg i v).pc = s.pc := rfl
@[simp] theorem setReg_status : (s.setReg i v).status = s.status := rfl
@[simp] theorem setReg_out : (s.setReg i v).out = s.out := rfl
@[simp] theorem setReg_reg : (s.setReg i v).reg j = if j = i then v else s.reg j := RegFile.get_set s.x i j v

@[simp] theorem setFl_mem : (s.setFl v).mem = s.mem := rfl
@[simp] theorem setFl_reg : (s.setFl v).reg j = s.reg j := rfl
@[simp] theorem setFl_fl : (s.setFl v).fl = v := rfl
@[simp] theorem setFl_pc : (s.setFl v).pc = s.pc := rfl
@[simp] theorem setFl_status : (s.setFl v).status = s.status := rfl
@[simp] theorem setFl_out : (s.setFl v).out = s.out := rfl

@[simp] theorem setPc_mem : (s.setPc n).mem = s.mem := rfl
@[simp] theorem setPc_reg : (s.setPc n).reg j = s.reg j := rfl
@[simp] theorem setPc_fl : (s.setPc n).fl = s.fl := rfl
@[simp] theorem setPc_pc : (s.setPc n).pc = n := rfl
@[simp] theorem setPc_status : (s.setPc n).status = s.status := rfl
@[simp] theorem setPc_out : (s.setPc n).out = s.out := rfl

@[simp] theorem advance_mem : (s.advance n).mem = s.mem := rfl
@[simp] theorem advance_reg : (s.advance n).reg j = s.reg j := rfl
@[simp] theorem advance_fl : (s.advance n).fl = s.fl := rfl
@[simp] theorem advance_pc : (s.advance n).pc = s.pc + n := rfl
@[simp] theorem advance_status : (s.advance n).status = s.status := rfl
@[simp] theorem advance_out : (s.advance n).out = s.out := rfl

@[simp] theorem setStatus_mem : (s.setStatus t).mem = s.mem := rfl
@[simp] theorem setStatus_reg : (s.setStatus t).reg j = s.reg j := rfl
@[simp] theorem setStatus_fl : (s.setStatus t).fl = s.fl := rfl
@[simp] theorem setStatus_pc : (s.setStatus t).pc = s.pc := rfl
@[simp] theorem setStatus_status : (s.setStatus t).status = t := rfl
@[simp] theorem setStatus_out : (s.setStatus t).out = s.out := rfl

@[simp] theorem emit_mem : (s.emit e).mem = s.mem := rfl
@[simp] theorem emit_reg : (s.emit e).reg j = s.reg j := rfl
@[simp] theorem emit_fl : (s.emit e).fl = s.fl := rfl
@[simp] theorem emit_pc : (s.emit e).pc = s.pc := rfl
@[simp] theorem emit_status : (s.emit e).status = s.status := rfl
@[simp] theorem emit_out : (s.emit e).out = s.out ++ [e] := rfl

@[simp] theorem raise_mem : (s.raise c).mem = s.mem := rfl
@[simp] theorem raise_reg : (s.raise c).reg j = s.reg j := rfl
@[simp] theorem raise_fl : (s.raise c).fl = s.fl := rfl
@[simp] theorem raise_pc : (s.raise c).pc = s.pc := rfl
@[simp] theorem raise_status : (s.raise c).status = .faulted c := rfl
@[simp] theorem raise_out : (s.raise c).out = s.out := rfl

@[simp] theorem placed_reg (nbits w : Nat) : (s.withFetchWord nbits w).reg j = s.reg j := rfl
@[simp] theorem placed_fl (nbits w : Nat) : (s.withFetchWord nbits w).fl = s.fl := rfl
@[simp] theorem placed_pc (nbits w : Nat) : (s.withFetchWord nbits w).pc = s.pc := rfl
@[simp] theorem placed_status (nbits w : Nat) : (s.withFetchWord nbits w).status = .running := rfl
@[simp] theorem placed_out (nbits w : Nat) : (s.withFetchWord nbits w).out = s.out := rfl

end State

end Sys2Proof.Machine
end

