-- ==== Sys2Proof/Laws/Ops.lean ====
section
/-! SUPPORT. One lemma for each shared operation that says everything it can do: the memory unit, operand fetches, operand forms, the stack's two halves. -/

namespace Sys2Proof.Machine

@[simp] theorem Access.andThen_value {α : Type} (v : α) (k : α → Result) : (Access.value v).andThen k = k v := rfl
@[simp] theorem Access.andThen_raised {α : Type} (s : State) (k : α → Result) :
    (Access.raised s : Access α).andThen k = .next s := rfl

/-- A read at a cell gives the byte and changes nothing (20_memory.md R31). -/
theorem memRead_cell {a : Nat} (s : State) (h : a ≤ 255) : memRead (a : Int) s = .value (s.mem.read a) := by
  have : inRange (a : Int) = true := by simp [inRange]; omega
  simp [memRead, this]

/-- A read outside memory reports and raises (20_memory.md R31). -/
theorem memRead_outside {addr : Int} (s : State) (h : addr < 0 ∨ 255 < addr) :
    memRead addr s = .raised ((s.emit .diagOutOfRange).raise (.outOfRangeRead addr)) := by
  have : inRange addr = false := by
    simp only [inRange, Bool.and_eq_false_iff, decide_eq_false_iff_not]; omega
  simp [memRead, this]

theorem memWrite_cell {a : Nat} (v : Byte) (s : State) (h : a ≤ 255) :
    memWrite (a : Int) v s = { s with mem := s.mem.write a v } := by
  have : inRange (a : Int) = true := by simp [inRange]; omega
  simp [memWrite, this]

/-- A write outside memory reports and carries on (20_memory.md R32). -/
theorem memWrite_outside {addr : Int} (v : Byte) (s : State) (h : addr < 0 ∨ 255 < addr) :
    memWrite addr v s = s.emit .diagOutOfRange := by
  have : inRange addr = false := by
    simp only [inRange, Bool.and_eq_false_iff, decide_eq_false_iff_not]; omega
  simp [memWrite, this]

/-- Every memory operation keeps the canonical form. -/
theorem memWrite_wf (addr : Int) (v : Byte) (s : State) (h : s.mem.wf = true) : (memWrite addr v s).mem.wf = true := by
  unfold memWrite
  split
  · rename_i hr
    simp only [inRange, Bool.and_eq_true, decide_eq_true_eq] at hr
    exact Memory.wf_write v h (by omega)
  · exact h

theorem operandAt_cell {k : Nat} (b : Byte) (s : State) (h : s.pc + k ≤ 255) : operandAt k b s = .value b := by
  have hr : memRead ((s.pc : Int) + (k : Int)) s = .value (s.mem.read (s.pc + k)) := memRead_cell s h
  simp [operandAt, hr]

theorem operandAt_outside {k : Nat} (b : Byte) (s : State) (h : 255 < s.pc + k) :
    operandAt k b s = .raised ((s.emit .diagOutOfRange).raise (.outOfRangeRead ((s.pc : Int) + (k : Int)))) := by
  have hr := memRead_outside (addr := (s.pc : Int) + (k : Int)) s (Or.inr (by omega))
  simp [operandAt, hr]

theorem regIdx_regByte (i : Fin 8) (s : State) : regIdx (regByte i) s = .value i := by
  fin_cases i <;> rfl

theorem regIdx_invalid {b : Byte} (s : State) (h : 7 < b.toNat) :
    regIdx b s = .raised (s.raise (.invalidRegisterIndex b)) := by
  have : ¬ b.toNat < 8 := by omega
  simp [regIdx, this]

/-- Every operand byte names a register or is above 7. -/
theorem regByte_or_invalid (b : Byte) : (∃ i : Fin 8, b = regByte i) ∨ 7 < b.toNat := by
  by_cases h : b.toNat < 8
  · refine Or.inl ⟨⟨b.toNat, h⟩, ?_⟩
    apply BitVec.eq_of_toNat_eq
    simp [regByte]
  · exact Or.inr (by omega)

theorem regByte_toNat (i : Fin 8) : (regByte i).toNat = i.val := by
  fin_cases i <;> rfl

/-- What the operand form OP_R can do: run its effect, raise on the fetch, or raise on the index. -/
theorem withReg_cases (r : Byte) (s : State) (k : Fin 8 → Result) :
    (s.pc + 1 ≤ 255 ∧ ∃ i, r = regByte i ∧ withReg r s k = k i) ∨
    (255 < s.pc + 1 ∧ withReg r s k =
      .next ((s.emit .diagOutOfRange).raise (.outOfRangeRead ((s.pc : Int) + 1)))) ∨
    (s.pc + 1 ≤ 255 ∧ 7 < r.toNat ∧ withReg r s k = .next (s.raise (.invalidRegisterIndex r))) := by
  by_cases hp : s.pc + 1 ≤ 255
  · rcases regByte_or_invalid r with ⟨i, rfl⟩ | hr
    · exact Or.inl ⟨hp, i, rfl, by simp [withReg, operandAt_cell _ s hp, regIdx_regByte]⟩
    · exact Or.inr (Or.inr ⟨hp, hr, by simp [withReg, operandAt_cell _ s hp, regIdx_invalid s hr]⟩)
  · have hp' : 255 < s.pc + 1 := by omega
    exact Or.inr (Or.inl ⟨hp', by simp [withReg, operandAt_outside _ s hp']⟩)

theorem withReg_regByte (i : Fin 8) (s : State) (k : Fin 8 → Result) (h : s.pc ≤ 254) :
    withReg (regByte i) s k = k i := by
  simp [withReg, operandAt_cell _ s (k := 1) (by omega), regIdx_regByte]

theorem withReg_outside (r : Byte) (s : State) (k : Fin 8 → Result) (h : s.pc = 255) :
    withReg r s k = .next ((s.emit .diagOutOfRange).raise (.outOfRangeRead 256)) := by
  simp [withReg, operandAt_outside _ s (k := 1) (by omega), h]

theorem withReg_invalid {r : Byte} (s : State) (k : Fin 8 → Result) (h : s.pc ≤ 254) (hr : 7 < r.toNat) :
    withReg r s k = .next (s.raise (.invalidRegisterIndex r)) := by
  simp [withReg, operandAt_cell _ s (k := 1) (by omega), regIdx_invalid s hr]

/-- The two operand fetches of a three-byte instruction that starts at 254 or 255 raise at address 256. -/
theorem two_fetches_outside {a b : Byte} (s : State) (k : Byte → Byte → Result) (h : s.pc = 254 ∨ s.pc = 255) :
    (operandAt 1 a s).andThen (fun v => (operandAt 2 b s).andThen (fun w => k v w)) =
      .next ((s.emit .diagOutOfRange).raise (.outOfRangeRead 256)) := by
  rcases h with h | h
  · rw [operandAt_cell a s (by omega), operandAt_outside b s (by omega)]
    simp [h]
  · rw [operandAt_outside a s (by omega)]
    simp [h]

/-- The two operand fetches of a three-byte instruction that fits. -/
theorem two_fetches_cell {a b : Byte} (s : State) (k : Byte → Byte → Result) (h : s.pc ≤ 253) :
    (operandAt 1 a s).andThen (fun v => (operandAt 2 b s).andThen (fun w => k v w)) = k a b := by
  rw [operandAt_cell a s (by omega), operandAt_cell b s (by omega)]
  rfl

/-- What the two operand fetches of a three-byte instruction can do. -/
theorem two_fetches_cases (a b : Byte) (s : State) (k : Byte → Byte → Result) :
    (s.pc ≤ 253 ∧ (operandAt 1 a s).andThen (fun v => (operandAt 2 b s).andThen (fun w => k v w)) = k a b) ∨
    (253 < s.pc ∧ ∃ addr : Int, 255 < addr ∧ addr ≤ (s.pc : Int) + 2 ∧ (s.pc ≤ 255 → addr = 256) ∧
      (operandAt 1 a s).andThen (fun v => (operandAt 2 b s).andThen (fun w => k v w)) =
        .next ((s.emit .diagOutOfRange).raise (.outOfRangeRead addr))) := by
  by_cases h : s.pc ≤ 253
  · exact Or.inl ⟨h, two_fetches_cell s k h⟩
  · refine Or.inr ⟨by omega, ?_⟩
    by_cases h1 : 255 < s.pc + 1
    · exact ⟨(s.pc : Int) + 1, by omega, by omega, by omega, by rw [operandAt_outside a s h1]; rfl⟩
    · refine ⟨(s.pc : Int) + 2, by omega, by omega, by omega, ?_⟩
      rw [operandAt_cell a s (by omega), operandAt_outside b s (by omega)]
      rfl

theorem Access.andThen_total {α : Type} (c : Access α) {k : α → Result} (h : ∀ v, ∃ t, k v = .next t) :
    ∃ t, c.andThen k = .next t := by
  cases c with
  | value v => exact h v
  | raised s => exact ⟨s, rfl⟩

/-- Each operand form answers a next state if its effect does. -/
theorem withReg_total (r : Byte) (s : State) {k : Fin 8 → Result} (h : ∀ i, ∃ t, k i = .next t) :
    ∃ t, withReg r s k = .next t := by
  unfold withReg
  exact Access.andThen_total _ fun b => Access.andThen_total (regIdx b s) h

theorem withRegImm_total (r imm : Byte) (s : State) {k : Fin 8 → Byte → Result} (h : ∀ i v, ∃ t, k i v = .next t) :
    ∃ t, withRegImm r imm s k = .next t := by
  unfold withRegImm
  exact Access.andThen_total _ fun b => Access.andThen_total _ fun v =>
    Access.andThen_total (regIdx b s) fun i => h i v

theorem withRegReg_total (a b : Byte) (s : State) {k : Fin 8 → Fin 8 → Result} (h : ∀ i j, ∃ t, k i j = .next t) :
    ∃ t, withRegReg a b s k = .next t := by
  unfold withRegReg
  exact Access.andThen_total _ fun b1 => Access.andThen_total _ fun b2 =>
    Access.andThen_total (regIdx b1 s) fun i => Access.andThen_total (regIdx b2 s) fun j => h i j

theorem withIgnored_total (u v : Byte) (s : State) {k : Result} (h : ∃ t, k = .next t) :
    ∃ t, withIgnored u v s k = .next t := by
  unfold withIgnored
  exact Access.andThen_total _ fun _ => Access.andThen_total _ fun _ => h

/-- What PUSH's two effects do to each part of the state (43_stack.md R90). -/
theorem pushReg_eq (i : Fin 8) (s : State) :
    pushReg i s =
      { decrementSp s with mem := s.mem.write (pushAddr s).toNat ((decrementSp s).reg i) } := by
  have h : ((decrementSp s).reg Config.spIndex).toNat ≤ 255 := by
    have := ((decrementSp s).reg Config.spIndex).isLt; omega
  simp only [pushReg]
  rw [memWrite_cell _ _ h]
  simp [decrementSp]

end Sys2Proof.Machine
end

