-- ==== Sys2Proof/Laws/Step.lean ====
section
/-! SUPPORT. What one step can do, and what one handler can do, said once. -/

namespace Sys2Proof.Machine

/-- A running core inside memory whose window decodes runs that instruction. -/
theorem step_runs {s : State} {i : Instr} {rest : List Byte} (hs : s.status = .running) (hp : s.pc ≤ 255)
    (hd : decode (fetchWindow s.mem s.pc) = .ok (i, rest)) : step s = exec i s := by
  simp [step, fetch, hs, fetchRunning, memRead_cell s hp, hd]

/-- A running core inside memory whose window does not decode reports it and changes nothing else. -/
theorem step_unrecognized {s : State} {e : DecodeReject} (hs : s.status = .running) (hp : s.pc ≤ 255)
    (hd : decode (fetchWindow s.mem s.pc) = .error e) : step s = .next (unrecognized s) := by
  simp [step, fetch, hs, fetchRunning, memRead_cell s hp, hd]

/-- A running core past the end of memory raises on its opcode fetch. -/
theorem step_outside {s : State} (hs : s.status = .running) (hp : 255 < s.pc) :
    step s = .next ((s.emit .diagOutOfRange).raise (.outOfRangeRead (s.pc : Int))) := by
  have h := memRead_outside (addr := (s.pc : Int)) s (Or.inr (by omega))
  simp [step, fetch, hs, fetchRunning, h]

/-- Everything a step that answers a next state can be. -/
theorem step_cases {s t : State} (h : step s = .next t) :
    s.status = .running ∧
      ((s.pc ≤ 255 ∧ ∃ i rest, decode (fetchWindow s.mem s.pc) = .ok (i, rest) ∧ exec i s = .next t) ∨
       (s.pc ≤ 255 ∧ (∃ e, decode (fetchWindow s.mem s.pc) = .error e) ∧ t = unrecognized s) ∨
       (255 < s.pc ∧ t = (s.emit .diagOutOfRange).raise (.outOfRangeRead (s.pc : Int)))) := by
  cases hs : s.status with
  | running =>
    refine ⟨rfl, ?_⟩
    by_cases hp : s.pc ≤ 255
    · cases hd : decode (fetchWindow s.mem s.pc) with
      | ok p =>
        obtain ⟨i, rest⟩ := p
        rw [step_runs hs hp hd] at h
        exact Or.inl ⟨hp, i, rest, rfl, h⟩
      | error e =>
        rw [step_unrecognized hs hp hd] at h
        exact Or.inr (Or.inl ⟨hp, ⟨e, rfl⟩, by injection h with h; exact h.symm⟩)
    · rw [step_outside hs (by omega)] at h
      exact Or.inr (Or.inr ⟨by omega, by injection h with h; exact h.symm⟩)
  | idle => simp [step, fetch, hs] at h
  | halted => simp [step, fetch, hs] at h
  | faulted c => simp [step, fetch, hs] at h

/-- How a handler can end: with a fatal condition taken precisely, or with its effect. `Raised s t` is the first. -/
def Raised (s t : State) : Prop :=
  (∃ addr : Int, 255 < addr ∧ addr ≤ (s.pc : Int) + 2 ∧ (s.pc ≤ 255 → addr = 256) ∧ 253 < s.pc ∧
    t = (s.emit .diagOutOfRange).raise (.outOfRangeRead addr)) ∨
  (∃ b : Byte, 7 < b.toNat ∧ t = s.raise (.invalidRegisterIndex b))

/-- Format OP_R: a precise fatal condition, or the effect on a register. -/
theorem withReg_next {r : Byte} {s t : State} {k : Fin 8 → Result} (h : withReg r s k = .next t) :
    Raised s t ∨ (s.pc ≤ 254 ∧ ∃ i, r = regByte i ∧ k i = .next t) := by
  rcases withReg_cases r s k with ⟨hp, i, hr, hk⟩ | ⟨hp, hk⟩ | ⟨_, hr, hk⟩
  · exact Or.inr ⟨by omega, i, hr, hk ▸ h⟩
  · rw [hk] at h
    injection h with h
    exact Or.inl (Or.inl ⟨(s.pc : Int) + 1, by omega, by omega, by omega, by omega, h.symm⟩)
  · rw [hk] at h
    injection h with h
    exact Or.inl (Or.inr ⟨r, hr, h.symm⟩)

/-- Format OP_R_I. -/
theorem withRegImm_next {r imm : Byte} {s t : State} {k : Fin 8 → Byte → Result} (h : withRegImm r imm s k = .next t) :
    Raised s t ∨ (s.pc ≤ 253 ∧ ∃ i, r = regByte i ∧ k i imm = .next t) := by
  unfold withRegImm at h
  rcases two_fetches_cases r imm s (fun b1 v => (regIdx b1 s).andThen fun i => k i v) with ⟨hp, hk⟩ | ⟨hp, a, h1, h2, h3, hk⟩
  · rw [hk] at h
    rcases regByte_or_invalid r with ⟨i, rfl⟩ | hr
    · rw [regIdx_regByte] at h
      exact Or.inr ⟨hp, i, rfl, h⟩
    · rw [regIdx_invalid s hr] at h
      injection h with h
      exact Or.inl (Or.inr ⟨r, hr, h.symm⟩)
  · rw [hk] at h
    injection h with h
    exact Or.inl (Or.inl ⟨a, h1, h2, h3, hp, h.symm⟩)

/-- Format OP_R_R. -/
theorem withRegReg_next {a b : Byte} {s t : State} {k : Fin 8 → Fin 8 → Result} (h : withRegReg a b s k = .next t) :
    Raised s t ∨ (s.pc ≤ 253 ∧ ∃ i j, a = regByte i ∧ b = regByte j ∧ k i j = .next t) := by
  unfold withRegReg at h
  rcases two_fetches_cases a b s (fun b1 b2 => (regIdx b1 s).andThen fun i => (regIdx b2 s).andThen fun j => k i j) with
    ⟨hp, hk⟩ | ⟨hp, ad, h1, h2, h3, hk⟩
  · rw [hk] at h
    rcases regByte_or_invalid a with ⟨i, rfl⟩ | ha
    · rw [regIdx_regByte, Access.andThen_value] at h
      rcases regByte_or_invalid b with ⟨j, rfl⟩ | hb
      · rw [regIdx_regByte] at h
        exact Or.inr ⟨hp, i, j, rfl, rfl, h⟩
      · rw [regIdx_invalid s hb] at h
        injection h with h
        exact Or.inl (Or.inr ⟨b, hb, h.symm⟩)
    · rw [regIdx_invalid s ha] at h
      injection h with h
      exact Or.inl (Or.inr ⟨a, ha, h.symm⟩)
  · rw [hk] at h
    injection h with h
    exact Or.inl (Or.inl ⟨ad, h1, h2, h3, hp, h.symm⟩)

/-- Format OP_X_X. -/
theorem withIgnored_next {u v : Byte} {s t : State} {k : Result} (h : withIgnored u v s k = .next t) :
    Raised s t ∨ (s.pc ≤ 253 ∧ k = .next t) := by
  unfold withIgnored at h
  rcases two_fetches_cases u v s (fun _ _ => k) with ⟨hp, hk⟩ | ⟨hp, ad, h1, h2, h3, hk⟩
  · rw [hk] at h
    exact Or.inr ⟨hp, h⟩
  · rw [hk] at h
    injection h with h
    exact Or.inl (Or.inl ⟨ad, h1, h2, h3, hp, h.symm⟩)

theorem execLdi_next {r imm : Byte} {s t : State} (h : execLdi r imm s = .next t) :
    Raised s t ∨ (s.pc ≤ 253 ∧ ∃ i, r = regByte i ∧ t = (s.setReg i imm).advance 3) := by
  rcases withRegImm_next h with h | ⟨hp, i, hr, hk⟩
  · exact Or.inl h
  · injection hk with hk
    exact Or.inr ⟨hp, i, hr, hk.symm⟩

theorem execPrn_next {r : Byte} {s t : State} (h : execPrn r s = .next t) :
    Raised s t ∨ (s.pc ≤ 254 ∧ ∃ i, r = regByte i ∧ t = (s.emit (.print (s.reg i))).advance 2) := by
  rcases withReg_next h with h | ⟨hp, i, hr, hk⟩
  · exact Or.inl h
  · injection hk with hk
    exact Or.inr ⟨hp, i, hr, hk.symm⟩

theorem execHlt_next {s t : State} (h : execHlt s = .next t) : t = (s.setStatus .halted).advance 1 := by
  injection h with h
  exact h.symm

theorem execMul_next {u v : Byte} {s t : State} (h : execMul u v s = .next t) :
    Raised s t ∨ (s.pc ≤ 253 ∧ t = (s.setReg 0 (mulLow (s.reg 0) (s.reg 1))).advance 3) := by
  rcases withIgnored_next h with h | ⟨hp, hk⟩
  · exact Or.inl h
  · injection hk with hk
    exact Or.inr ⟨hp, hk.symm⟩

theorem execCmp_next {a b : Byte} {s t : State} (h : execCmp a b s = .next t) :
    Raised s t ∨ (s.pc ≤ 253 ∧ ∃ i j, a = regByte i ∧ b = regByte j ∧
      t = (s.setFl (compareFlags (s.reg i) (s.reg j))).advance 3) := by
  rcases withRegReg_next h with h | ⟨hp, i, j, ha, hb, hk⟩
  · exact Or.inl h
  · injection hk with hk
    exact Or.inr ⟨hp, i, j, ha, hb, hk.symm⟩

theorem execPush_next {r : Byte} {s t : State} (h : execPush r s = .next t) :
    Raised s t ∨ (s.pc ≤ 254 ∧ ∃ i, r = regByte i ∧ t = (pushReg i s).advance 2) := by
  rcases withReg_next h with h | ⟨hp, i, hr, hk⟩
  · exact Or.inl h
  · injection hk with hk
    exact Or.inr ⟨hp, i, hr, hk.symm⟩

/-- The data read of POP cannot fail: `x[7]` is a byte (43_stack.md R93). -/
theorem popRead (s : State) : memRead ((s.reg Config.spIndex).toNat : Int) s = .value (s.mem.read (s.reg Config.spIndex).toNat) :=
  memRead_cell s (by have := (s.reg Config.spIndex).isLt; omega)

theorem execPop_next {r : Byte} {s t : State} (h : execPop r s = .next t) :
    Raised s t ∨ (s.pc ≤ 254 ∧ ∃ i, r = regByte i ∧
      t = (incrementSp (s.setReg i (s.mem.read (s.reg Config.spIndex).toNat))).advance 2) := by
  rcases withReg_next h with h | ⟨hp, i, hr, hk⟩
  · exact Or.inl h
  · rw [popRead] at hk
    injection hk with hk
    exact Or.inr ⟨hp, i, hr, hk.symm⟩

theorem jumpToReg_next {r : Byte} {s t : State} (h : jumpToReg r s = .next t) :
    Raised s t ∨ (s.pc ≤ 254 ∧ ∃ i, r = regByte i ∧ t = s.setPc (s.reg i).toNat) := by
  rcases withReg_next h with h | ⟨hp, i, hr, hk⟩
  · exact Or.inl h
  · injection hk with hk
    exact Or.inr ⟨hp, i, hr, hk.symm⟩

theorem execJmp_next {r : Byte} {s t : State} (h : execJmp r s = .next t) :
    Raised s t ∨ (s.pc ≤ 254 ∧ ∃ i, r = regByte i ∧ t = s.setPc (s.reg i).toNat) := jumpToReg_next h

theorem execJeq_next {r : Byte} {s t : State} (h : execJeq r s = .next t) :
    (equalBit s.fl = false ∧ t = s.advance 2) ∨
    (equalBit s.fl = true ∧ (Raised s t ∨ (s.pc ≤ 254 ∧ ∃ i, r = regByte i ∧ t = s.setPc (s.reg i).toNat))) := by
  unfold execJeq at h
  cases he : equalBit s.fl with
  | true =>
    rw [he] at h
    exact Or.inr ⟨rfl, jumpToReg_next h⟩
  | false =>
    rw [he] at h
    injection h with h
    exact Or.inl ⟨rfl, h.symm⟩

theorem execJne_next {r : Byte} {s t : State} (h : execJne r s = .next t) :
    (equalBit s.fl = true ∧ t = s.advance 2) ∨
    (equalBit s.fl = false ∧ (Raised s t ∨ (s.pc ≤ 254 ∧ ∃ i, r = regByte i ∧ t = s.setPc (s.reg i).toNat))) := by
  unfold execJne at h
  cases he : equalBit s.fl with
  | true =>
    rw [he] at h
    injection h with h
    exact Or.inl ⟨rfl, h.symm⟩
  | false =>
    rw [he] at h
    exact Or.inr ⟨rfl, jumpToReg_next h⟩

/-- A comparison writes one of three patterns (42_alu_mul_cmp.md R83). -/
theorem compareFlags_cases (p q : Byte) :
    (p.toNat = q.toNat ∧ compareFlags p q = 1#8) ∨ (q.toNat < p.toNat ∧ compareFlags p q = 2#8) ∨
      (p.toNat < q.toNat ∧ compareFlags p q = 4#8) := by
  unfold compareFlags
  by_cases h : p.toNat = q.toNat
  · simp [h]
  · by_cases h2 : p.toNat > q.toNat
    · exact Or.inr (Or.inl ⟨h2, by simp [h, h2]⟩)
    · exact Or.inr (Or.inr ⟨by omega, by simp [h, h2]⟩)

end Sys2Proof.Machine
end

