-- ==== Sys2Proof/Laws/Exec.lean ====
section
/-! SUPPORT. Each handler as an equation: where it completes, and the fatal condition it takes elsewhere. -/

namespace Sys2Proof.Machine

/-! Each arm of the dispatch is its handler (40_fetch_dispatch.md R67). -/

theorem exec_ldi (r imm : Byte) (s : State) : exec (.ldi r imm) s = execLdi r imm s := rfl
theorem exec_prn (r : Byte) (s : State) : exec (.prn r) s = execPrn r s := rfl
theorem exec_mul (u v : Byte) (s : State) : exec (.mul u v) s = execMul u v s := rfl
theorem exec_hlt (s : State) : exec .hlt s = execHlt s := rfl
theorem exec_push (r : Byte) (s : State) : exec (.push r) s = execPush r s := rfl
theorem exec_pop (r : Byte) (s : State) : exec (.pop r) s = execPop r s := rfl
theorem exec_cmp (a b : Byte) (s : State) : exec (.cmp a b) s = execCmp a b s := rfl
theorem exec_jne (r : Byte) (s : State) : exec (.jne r) s = execJne r s := rfl
theorem exec_jeq (r : Byte) (s : State) : exec (.jeq r) s = execJeq r s := rfl
theorem exec_jmp (r : Byte) (s : State) : exec (.jmp r) s = jumpToReg r s := rfl

/-- The state after a failed operand fetch of a running handler: reported, and fatal at address 256. -/
def fetchFault (s : State) : State := (s.emit .diagOutOfRange).raise (.outOfRangeRead 256)

/-- A failed operand fetch is taken precisely (60_exceptions.md R106). -/
theorem fetchFault_precise (s : State) : FaultsPrecisely (.outOfRangeRead 256) [.diagOutOfRange] s (fetchFault s) :=
  ⟨rfl, rfl, rfl, rfl, fun _ _ => rfl, fun _ => rfl⟩

/-- A bad register byte is taken precisely (60_exceptions.md R106). -/
theorem raiseIndex_precise (s : State) (b : Byte) :
    FaultsPrecisely (.invalidRegisterIndex b) [] s (s.raise (.invalidRegisterIndex b)) :=
  ⟨rfl, (List.append_nil s.out).symm, rfl, rfl, fun _ _ => rfl, fun _ => rfl⟩

theorem execLdi_ok (i : Fin 8) (imm : Byte) {s : State} (h : s.pc ≤ 253) :
    execLdi (regByte i) imm s = .next ((s.setReg i imm).advance 3) := by
  unfold execLdi withRegImm
  rw [two_fetches_cell s _ h, regIdx_regByte]
  rfl

theorem execLdi_outside (r imm : Byte) {s : State} (h : s.pc = 254 ∨ s.pc = 255) :
    execLdi r imm s = .next (fetchFault s) := by
  unfold execLdi withRegImm
  rw [two_fetches_outside s _ h]
  rfl

theorem execLdi_invalid {r : Byte} (imm : Byte) {s : State} (h : s.pc ≤ 253) (hr : 7 < r.toNat) :
    execLdi r imm s = .next (s.raise (.invalidRegisterIndex r)) := by
  unfold execLdi withRegImm
  rw [two_fetches_cell s _ h, regIdx_invalid s hr]
  rfl

theorem execPrn_ok (i : Fin 8) {s : State} (h : s.pc ≤ 254) :
    execPrn (regByte i) s = .next ((s.emit (.print (s.reg i))).advance 2) := by
  unfold execPrn
  rw [withReg_regByte i s _ h]

theorem execPrn_outside (r : Byte) {s : State} (h : s.pc = 255) : execPrn r s = .next (fetchFault s) := by
  unfold execPrn
  rw [withReg_outside r s _ h]
  rfl

theorem execPrn_invalid {r : Byte} {s : State} (h : s.pc ≤ 254) (hr : 7 < r.toNat) :
    execPrn r s = .next (s.raise (.invalidRegisterIndex r)) := by
  unfold execPrn
  rw [withReg_invalid s _ h hr]

theorem execMul_ok (u v : Byte) {s : State} (h : s.pc ≤ 253) :
    execMul u v s = .next ((s.setReg 0 (mulLow (s.reg 0) (s.reg 1))).advance 3) := by
  unfold execMul withIgnored
  rw [two_fetches_cell s _ h]

theorem execMul_outside (u v : Byte) {s : State} (h : s.pc = 254 ∨ s.pc = 255) :
    execMul u v s = .next (fetchFault s) := by
  unfold execMul withIgnored
  rw [two_fetches_outside s _ h]
  rfl

theorem execCmp_ok (i j : Fin 8) {s : State} (h : s.pc ≤ 253) :
    execCmp (regByte i) (regByte j) s = .next ((s.setFl (compareFlags (s.reg i) (s.reg j))).advance 3) := by
  unfold execCmp withRegReg
  rw [two_fetches_cell s _ h, regIdx_regByte, Access.andThen_value, regIdx_regByte]
  rfl

theorem execCmp_outside (a b : Byte) {s : State} (h : s.pc = 254 ∨ s.pc = 255) :
    execCmp a b s = .next (fetchFault s) := by
  unfold execCmp withRegReg
  rw [two_fetches_outside s _ h]
  rfl

theorem execCmp_invalid_first {a : Byte} (b : Byte) {s : State} (h : s.pc ≤ 253) (ha : 7 < a.toNat) :
    execCmp a b s = .next (s.raise (.invalidRegisterIndex a)) := by
  unfold execCmp withRegReg
  rw [two_fetches_cell s _ h, regIdx_invalid s ha]
  rfl

theorem execCmp_invalid_second (i : Fin 8) {b : Byte} {s : State} (h : s.pc ≤ 253) (hb : 7 < b.toNat) :
    execCmp (regByte i) b s = .next (s.raise (.invalidRegisterIndex b)) := by
  unfold execCmp withRegReg
  rw [two_fetches_cell s _ h, regIdx_regByte, Access.andThen_value, regIdx_invalid s hb]
  rfl

theorem execPush_ok (i : Fin 8) {s : State} (h : s.pc ≤ 254) :
    execPush (regByte i) s = .next ((pushReg i s).advance 2) := by
  unfold execPush
  rw [withReg_regByte i s _ h]

theorem execPush_outside (r : Byte) {s : State} (h : s.pc = 255) : execPush r s = .next (fetchFault s) := by
  unfold execPush
  rw [withReg_outside r s _ h]
  rfl

theorem execPush_invalid {r : Byte} {s : State} (h : s.pc ≤ 254) (hr : 7 < r.toNat) :
    execPush r s = .next (s.raise (.invalidRegisterIndex r)) := by
  unfold execPush
  rw [withReg_invalid s _ h hr]

/-- POP's two effects, its data read done. -/
def popReg (i : Fin 8) (s : State) : State := incrementSp (s.setReg i (s.mem.read (s.reg Config.spIndex).toNat))

theorem execPop_ok (i : Fin 8) {s : State} (h : s.pc ≤ 254) :
    execPop (regByte i) s = .next ((popReg i s).advance 2) := by
  unfold execPop
  rw [withReg_regByte i s _ h, popRead]
  rfl

theorem execPop_outside (r : Byte) {s : State} (h : s.pc = 255) : execPop r s = .next (fetchFault s) := by
  unfold execPop
  rw [withReg_outside r s _ h]
  rfl

theorem execPop_invalid {r : Byte} {s : State} (h : s.pc ≤ 254) (hr : 7 < r.toNat) :
    execPop r s = .next (s.raise (.invalidRegisterIndex r)) := by
  unfold execPop
  rw [withReg_invalid s _ h hr]

theorem jumpToReg_ok (i : Fin 8) {s : State} (h : s.pc ≤ 254) :
    jumpToReg (regByte i) s = .next (s.setPc (s.reg i).toNat) := by
  unfold jumpToReg
  rw [withReg_regByte i s _ h]

theorem jumpToReg_outside (r : Byte) {s : State} (h : s.pc = 255) : jumpToReg r s = .next (fetchFault s) := by
  unfold jumpToReg
  rw [withReg_outside r s _ h]
  rfl

theorem jumpToReg_invalid {r : Byte} {s : State} (h : s.pc ≤ 254) (hr : 7 < r.toNat) :
    jumpToReg r s = .next (s.raise (.invalidRegisterIndex r)) := by
  unfold jumpToReg
  rw [withReg_invalid s _ h hr]

theorem execJeq_taken (r : Byte) {s : State} (h : equalBit s.fl = true) : execJeq r s = jumpToReg r s := by
  unfold execJeq
  rw [if_pos h]

theorem execJeq_notTaken (r : Byte) {s : State} (h : equalBit s.fl = false) : execJeq r s = .next (s.advance 2) := by
  unfold execJeq
  rw [h]
  rfl

theorem execJne_taken (r : Byte) {s : State} (h : equalBit s.fl = false) : execJne r s = jumpToReg r s := by
  unfold execJne
  rw [h]
  rfl

theorem execJne_notTaken (r : Byte) {s : State} (h : equalBit s.fl = true) : execJne r s = .next (s.advance 2) := by
  unfold execJne
  rw [if_pos h]

/-- What PUSH's two effects leave in each field (43_stack.md R90). -/
theorem pushReg_fields (i : Fin 8) (s : State) :
    (pushReg i s).pc = s.pc ∧ (pushReg i s).fl = s.fl ∧ (pushReg i s).status = s.status ∧
      (pushReg i s).out = s.out ∧
      (∀ k : Fin 8, (pushReg i s).reg k = if k = 7 then pushAddr s else s.reg k) ∧
      (pushReg i s).mem = s.mem.write (pushAddr s).toNat (if i = 7 then pushAddr s else s.reg i) := by
  rw [pushReg_eq]
  refine ⟨rfl, rfl, rfl, rfl, fun k => ?_, ?_⟩
  · change (decrementSp s).reg k = _
    simp [decrementSp]
  · simp [decrementSp]

/-- What POP's two effects leave in the registers (43_stack.md R91). -/
theorem popReg_reg (i k : Fin 8) (s : State) :
    (popReg i s).reg k =
      if k = 7 then (if i = 7 then s.mem.read (s.reg 7).toNat else s.reg 7) + 1#8
      else if k = i then s.mem.read (s.reg 7).toNat else s.reg k := by
  by_cases hk : k = 7
  · subst hk
    by_cases hi : i = 7
    · simp [popReg, incrementSp, hi]
    · simp [popReg, incrementSp, hi, Ne.symm hi]
  · simp [popReg, incrementSp, hk]

@[simp] theorem popReg_mem (i : Fin 8) (s : State) : (popReg i s).mem = s.mem := rfl
@[simp] theorem popReg_fl (i : Fin 8) (s : State) : (popReg i s).fl = s.fl := rfl
@[simp] theorem popReg_pc (i : Fin 8) (s : State) : (popReg i s).pc = s.pc := rfl
@[simp] theorem popReg_status (i : Fin 8) (s : State) : (popReg i s).status = s.status := rfl
@[simp] theorem popReg_out (i : Fin 8) (s : State) : (popReg i s).out = s.out := rfl

end Sys2Proof.Machine
end

