-- ==== Sys2Proof/Laws/Frame.lean ====
section
/-! SUPPORT. What the decoder's window holds, which opcode byte gives which instruction, how a run advances, and everything a completed handler leaves. -/

namespace Sys2Proof.Machine

theorem ne_of_not_mem_singleton {i k : Fin 8} (h : k.val ∉ [i.val]) : k ≠ i := by
  rintro rfl
  simp at h

/-- A run takes one step and goes on. -/
theorem core_run_next {s t : State} (n : Nat) (h : step s = .next t) :
    Sys2Proof.core.run (n + 1) s = Sys2Proof.core.run n t := by
  have e : Sys2Proof.core.step s = .next t := h
  simp only [Host.Core.run]
  rw [e]

theorem byteForDecoder_cell {m : Memory} {a : Nat} (h : a ≤ 255) : byteForDecoder m a = m.read a :=
  if_pos (show a < 256 by omega)

/-- A window that lies in memory is the three cells. -/
theorem fetchWindow_inside {m : Memory} {a : Nat} (h : a ≤ 253) :
    fetchWindow m a = [m.read a, m.read (a + 1), m.read (a + 2)] := by
  unfold fetchWindow
  rw [byteForDecoder_cell (by omega), byteForDecoder_cell (by omega), byteForDecoder_cell (by omega)]

theorem isOpcode_cases {op : Byte} (h : isOpcode op = true) :
    op = 0x82#8 ∨ op = 0x47#8 ∨ op = 0xA2#8 ∨ op = 0x01#8 ∨ op = 0x45#8 ∨ op = 0x46#8 ∨ op = 0xA7#8 ∨
      op = 0x56#8 ∨ op = 0x55#8 ∨ op = 0x54#8 := by
  simpa only [isOpcode, List.contains_eq_mem, decide_eq_true_eq, List.mem_cons, List.not_mem_nil, or_false] using h

/-- An opcode byte outside the map is rejected, whatever follows (30_encoding.md R55). -/
theorem decode_not_opcode {op : Byte} (rest : List Byte) (h : isOpcode op = false) :
    decode (op :: rest) = .error (.unrecognizedOpcode op) := by
  simp only [isOpcode, List.contains_eq_mem, decide_eq_false_iff_not, List.mem_cons, List.not_mem_nil, or_false,
    not_or] at h
  simp [decode, opcodeMap_find, h]

/-- What the opcode byte says of the decoded instruction. -/
theorem decode_first_byte {b0 b1 b2 : Byte} {i : Instr} {rest : List Byte} (h : decode [b0, b1, b2] = .ok (i, rest)) :
    isOpcode b0 = true ∧ (i = .hlt ↔ b0 = 0x01#8) ∧ (∀ r, i = .push r → b0 = 0x45#8) ∧
      (∀ r, i = .prn r → b0 = 0x47#8 ∧ b1 = r) := by
  cases hop : isOpcode b0 with
  | false =>
    rw [decode_not_opcode _ hop] at h
    cases h
  | true =>
    rcases isOpcode_cases hop with h' | h' | h' | h' | h' | h' | h' | h' | h' | h' <;> subst h' <;>
      simp only [decode_ldi, decode_prn, decode_mul, decode_hlt, decode_push, decode_pop, decode_cmp, decode_jne,
        decode_jeq, decode_jmp] at h <;>
      injection h with h <;> injection h with h1 h2 <;> subst h1 <;> simp

/-- A window of three bytes is rejected exactly when its first byte is no opcode. -/
theorem decode_window_error {b0 b1 b2 : Byte} :
    (∃ e, decode [b0, b1, b2] = .error e) ↔ isOpcode b0 = false := by
  constructor
  · rintro ⟨e, h⟩
    cases hop : isOpcode b0 with
    | false => rfl
    | true =>
      rcases isOpcode_cases hop with h' | h' | h' | h' | h' | h' | h' | h' | h' | h' <;> subst h' <;>
        simp [decode, opcodeMap, Form.take] at h
  · intro h
    exact ⟨_, decode_not_opcode _ h⟩

/-- A handler that raised did so precisely (60_exceptions.md R106). -/
theorem Raised.precise {s t : State} (h : Raised s t) :
    (∃ addr : Int, 255 < addr ∧ (s.pc ≤ 255 → addr = 256) ∧
      FaultsPrecisely (.outOfRangeRead addr) [.diagOutOfRange] s t) ∨
    (∃ b : Byte, 7 < b.toNat ∧ FaultsPrecisely (.invalidRegisterIndex b) [] s t) := by
  rcases h with ⟨a, h1, _, h3, _, rfl⟩ | ⟨b, hb, rfl⟩
  · exact Or.inl ⟨a, h1, h3, rfl, rfl, rfl, rfl, fun _ _ => rfl, fun _ => rfl⟩
  · exact Or.inr ⟨b, hb, raiseIndex_precise s b⟩

/-- What a handler that did not raise leaves, whichever instruction it is. -/
structure Completed (i : Instr) (s t : State) : Prop where
  status : t.status = s.status ∨ (i = .hlt ∧ t.status = .halted)
  halts : i = .hlt → t.status = .halted
  pc : t.pc ≤ 256 ∨ t.pc ≤ s.pc + 2
  fl : t.fl = s.fl ∨ t.fl = 1#8 ∨ t.fl = 2#8 ∨ t.fl = 4#8
  wf : s.mem.wf = true → t.mem.wf = true
  mem : SameMemory s t ∨
    ((∃ r, i = .push r) ∧ ∀ a, a ≠ (pushAddr s).toNat → t.mem.read a = s.mem.read a)
  out : t.out = s.out ∨
    ∃ r j, i = .prn r ∧ r = regByte j ∧ s.pc ≤ 254 ∧ t.out = s.out ++ [.print (s.reg j)]

theorem completed_jump (i : Instr) (s : State) (k : Fin 8) (hi : i ≠ .hlt) : Completed i s (s.setPc (s.reg k).toNat) where
  status := Or.inl rfl
  halts e := absurd e hi
  pc := Or.inl (by have := (s.reg k).isLt; rw [State.setPc_pc]; omega)
  fl := Or.inl rfl
  wf := id
  mem := Or.inl fun _ => rfl
  out := Or.inl rfl

theorem completed_advance (i : Instr) (s : State) (hi : i ≠ .hlt) : Completed i s (s.advance 2) where
  status := Or.inl rfl
  halts e := absurd e hi
  pc := Or.inr (le_refl _)
  fl := Or.inl rfl
  wf := id
  mem := Or.inl fun _ => rfl
  out := Or.inl rfl

/-- Everything a handler can do: raise precisely, or complete. -/
theorem exec_cases {i : Instr} {s t : State} (h : exec i s = .next t) : Raised s t ∨ Completed i s t := by
  cases i with
  | ldi r imm =>
    rcases execLdi_next h with h | ⟨hp, i, hr, rfl⟩
    · exact Or.inl h
    · exact Or.inr ⟨Or.inl rfl, nofun, Or.inl (by simp; omega), Or.inl rfl, id, Or.inl fun _ => rfl, Or.inl rfl⟩
  | prn r =>
    rcases execPrn_next h with h | ⟨hp, i, hr, rfl⟩
    · exact Or.inl h
    · exact Or.inr ⟨Or.inl rfl, nofun, Or.inl (by simp; omega), Or.inl rfl, id, Or.inl fun _ => rfl,
        Or.inr ⟨r, i, rfl, hr, hp, rfl⟩⟩
  | mul u v =>
    rcases execMul_next h with h | ⟨hp, rfl⟩
    · exact Or.inl h
    · exact Or.inr ⟨Or.inl rfl, nofun, Or.inl (by simp; omega), Or.inl rfl, id, Or.inl fun _ => rfl, Or.inl rfl⟩
  | hlt =>
    obtain rfl := execHlt_next h
    exact Or.inr ⟨Or.inr ⟨rfl, rfl⟩, fun _ => rfl, Or.inr (by simp), Or.inl rfl, id, Or.inl fun _ => rfl, Or.inl rfl⟩
  | push r =>
    rcases execPush_next h with h | ⟨hp, i, hr, rfl⟩
    · exact Or.inl h
    · obtain ⟨h1, h2, h3, h4, _, h6⟩ := pushReg_fields i s
      refine Or.inr ⟨Or.inl (by simp [h3]), nofun, Or.inl (by simp [h1]; omega), Or.inl (by simp [h2]), ?_,
        Or.inr ⟨⟨r, rfl⟩, ?_⟩, Or.inl (by simp [h4])⟩
      · intro hw
        rw [State.advance_mem, h6]
        exact Memory.wf_write _ hw (pushAddr s).isLt
      · intro a ha
        rw [State.advance_mem, h6]
        exact Memory.read_write_other _ _ ha
  | pop r =>
    rcases execPop_next h with h | ⟨hp, i, hr, rfl⟩
    · exact Or.inl h
    · exact Or.inr ⟨Or.inl rfl, nofun, Or.inl (show s.pc + 2 ≤ 256 by omega), Or.inl rfl, id, Or.inl fun _ => rfl,
        Or.inl rfl⟩
  | cmp a b =>
    rcases execCmp_next h with h | ⟨hp, i, j, ha, hb, rfl⟩
    · exact Or.inl h
    · refine Or.inr ⟨Or.inl rfl, nofun, Or.inl (by simp; omega), Or.inr ?_, id, Or.inl fun _ => rfl, Or.inl rfl⟩
      rcases compareFlags_cases (s.reg i) (s.reg j) with ⟨_, h2⟩ | ⟨_, h2⟩ | ⟨_, h2⟩ <;> simp [h2]
  | jne r =>
    rcases execJne_next h with ⟨_, rfl⟩ | ⟨_, h | ⟨_, k, _, rfl⟩⟩
    · exact Or.inr (completed_advance _ s nofun)
    · exact Or.inl h
    · exact Or.inr (completed_jump _ s k nofun)
  | jeq r =>
    rcases execJeq_next h with ⟨_, rfl⟩ | ⟨_, h | ⟨_, k, _, rfl⟩⟩
    · exact Or.inr (completed_advance _ s nofun)
    · exact Or.inl h
    · exact Or.inr (completed_jump _ s k nofun)
  | jmp r =>
    rcases execJmp_next h with h | ⟨_, k, _, rfl⟩
    · exact Or.inl h
    · exact Or.inr (completed_jump _ s k nofun)

end Sys2Proof.Machine
end

