-- ==== Sys2Proof/Laws/Launch.lean ====
section
/-! SUPPORT. What the host's load, start, commands and launch can do, each said once. -/

namespace Sys2Proof.Machine

/-- A load is accepted exactly in Idle, for at most 256 values of 0 to 255, and then only memory is new. -/
theorem State.install_eq_ok_iff {s t : State} {program : List Nat} :
    s.install program = .ok t ↔
      s.status = .idle ∧ program.length ≤ 256 ∧ (∀ b ∈ program, b ≤ 255) ∧
        t = { s with mem := storeBytes s.mem Config.loadBase (program.map (BitVec.ofNat 8)) } := by
  by_cases hs : s.status = .idle
  · by_cases hl : program.length ≤ 256
    · by_cases hb : ∀ b ∈ program, b ≤ 255
      · have hany : program.any (fun b => decide (255 < b)) = false := by
          simpa using hb
        have hlen : ¬ Config.memCells < program.length := by simp only [Config.memCells]; omega
        have he : s.install program =
            .ok { s with mem := storeBytes s.mem Config.loadBase (program.map (BitVec.ofNat 8)) } := by
          simp [State.install, hs, hlen, hany]
        rw [he]
        exact ⟨fun h => ⟨hs, hl, hb, (Except.ok.inj h).symm⟩, fun h => by rw [h.2.2.2]⟩
      · have hany : program.any (fun b => decide (255 < b)) = true := by
          simpa using hb
        have hlen : ¬ Config.memCells < program.length := by simp only [Config.memCells]; omega
        simp [State.install, hs, hlen, hany, hb]
    · have hlen : Config.memCells < program.length := by simp only [Config.memCells]; omega
      simp [State.install, hs, hlen, hl]
  · simp [State.install, hs]

/-- What memory reads as after an accepted load: the program from address 0, and every other cell as before. -/
theorem State.read_install {s t : State} {program : List Nat} (hm : s.mem.wf = true)
    (h : s.install program = .ok t) (a : Nat) : (t.mem.read a).toNat = program.getD a (s.mem.read a).toNat := by
  obtain ⟨-, hl, hb, rfl⟩ := State.install_eq_ok_iff.mp h
  change ((storeBytes s.mem 0 (program.map (BitVec.ofNat 8))).read a).toNat = _
  rw [Memory.read_storeBytes 0 _ hm (by simpa using hl)]
  simp only [Nat.zero_le, if_true, Nat.sub_zero, List.getD_eq_getElem?_getD, List.getElem?_map]
  cases hpa : program[a]? with
  | none => simp
  | some b =>
    have := hb b (List.mem_of_getElem? hpa)
    simp only [Option.map_some, Option.getD_some, BitVec.toNat_ofNat]
    omega

/-- A start of the core is accepted exactly in Idle, and only the status is new. -/
theorem State.start_eq_ok_iff {s t : State} : s.start = .ok t ↔ s.status = .idle ∧ t = s.setStatus .running := by
  by_cases hs : s.status = .idle
  · simp [State.start, hs, eq_comm]
  · simp [State.start, hs]

theorem Session.reset_eq_ok_iff {u v : Session} :
    u.command .reset = .ok v ↔ u.core.status ≠ .running ∧ v = .afterReset := by
  by_cases hs : u.core.status = .running
  · simp [Session.command, hs]
  · simp [Session.command, hs, eq_comm]

theorem Session.load_eq_ok_iff {u v : Session} {program : List Nat} :
    u.command (.load program) = .ok v ↔
      u.loaded = false ∧ ∃ t, u.core.install program = .ok t ∧ v = { core := t, loaded := true } := by
  cases hl : u.loaded with
  | true => simp [Session.command, hl]
  | false => cases hi : u.core.install program <;> simp [Session.command, hl, hi, Except.map, eq_comm]

theorem Session.start_eq_ok_iff {u v : Session} :
    u.command .start = .ok v ↔
      u.loaded = true ∧ u.core.status = .idle ∧ v = { u with core := u.core.setStatus .running } := by
  cases hl : u.loaded with
  | false => simp [Session.command, hl]
  | true =>
    by_cases hs : u.core.status = .idle
    · simp [Session.command, hl, State.start, hs, Except.map, eq_comm]
    · simp [Session.command, hl, State.start, hs, Except.map]

/-- Launching is what load and start do to the reset state. -/
theorem launch_eq (program : List Nat) : launch program = (State.reset.install program).bind State.start := by
  have hr : Session.command .afterReset .reset = .ok .afterReset := rfl
  have hl : Session.command .afterReset (.load program) =
      (State.reset.install program).map fun s => { core := s, loaded := true } := rfl
  simp only [launch, Session.commands, hr, hl, Except.bind]
  cases State.reset.install program with
  | error e => rfl
  | ok s => cases h : s.start <;> simp [Session.command, h, Except.map]

/-- A program is launched exactly if load accepts it after reset, and the launch state is that core with status Running
(70_reset_and_hazards.md R121). -/
theorem launch_eq_ok_iff {program : List Nat} {t : State} :
    launch program = .ok t ↔ ∃ s, State.reset.install program = .ok s ∧ t = s.setStatus .running := by
  rw [launch_eq]
  cases hi : State.reset.install program with
  | error e => simp [Except.bind]
  | ok s =>
    obtain ⟨hs, -, -, rfl⟩ := State.install_eq_ok_iff.mp hi
    simp [Except.bind, State.start, hs, eq_comm]

end Sys2Proof.Machine
end

