-- ==== Sys2Proof/Laws/PerInstr.lean ====
section
/-! SUPPORT. Statements about every instruction as syntax, one lemma for each constructor: the number of operand bytes, and the round trip through the decoder. -/

namespace Sys2Proof.Laws.OperandCount

/-- An instruction is its opcode byte and as many operand bytes as the opcode's top two bits count (30_encoding.md R53, R57). -/
def Statement (i : Instr) : Prop :=
  ∃ op operands, encode i = op :: operands ∧ operands.length + 1 = i.length ∧ op.toNat / 64 = operands.length

theorem ldi (r imm : Byte) : Statement (.ldi r imm) := ⟨_, _, rfl, rfl, by simp⟩
theorem prn (r : Byte) : Statement (.prn r) := ⟨_, _, rfl, rfl, by simp⟩
theorem mul (u v : Byte) : Statement (.mul u v) := ⟨_, _, rfl, rfl, by simp⟩
theorem hlt : Statement .hlt := ⟨_, _, rfl, rfl, by simp⟩
theorem push (r : Byte) : Statement (.push r) := ⟨_, _, rfl, rfl, by simp⟩
theorem pop (r : Byte) : Statement (.pop r) := ⟨_, _, rfl, rfl, by simp⟩
theorem cmp (a b : Byte) : Statement (.cmp a b) := ⟨_, _, rfl, rfl, by simp⟩
theorem jne (r : Byte) : Statement (.jne r) := ⟨_, _, rfl, rfl, by simp⟩
theorem jeq (r : Byte) : Statement (.jeq r) := ⟨_, _, rfl, rfl, by simp⟩
theorem jmp (r : Byte) : Statement (.jmp r) := ⟨_, _, rfl, rfl, by simp⟩

end Sys2Proof.Laws.OperandCount

namespace Sys2Proof.Laws.RoundTrip

/-- The encoded instruction decodes to itself, whatever bytes follow it (30_encoding.md R54, R58). -/
def Statement (i : Instr) : Prop := ∀ rest, decode (encode i ++ rest) = .ok (i, rest)

theorem ldi (r imm : Byte) : Statement (.ldi r imm) := fun _ => rfl
theorem prn (r : Byte) : Statement (.prn r) := fun _ => rfl
theorem mul (u v : Byte) : Statement (.mul u v) := fun _ => rfl
theorem hlt : Statement .hlt := fun _ => rfl
theorem push (r : Byte) : Statement (.push r) := fun _ => rfl
theorem pop (r : Byte) : Statement (.pop r) := fun _ => rfl
theorem cmp (a b : Byte) : Statement (.cmp a b) := fun _ => rfl
theorem jne (r : Byte) : Statement (.jne r) := fun _ => rfl
theorem jeq (r : Byte) : Statement (.jeq r) := fun _ => rfl
theorem jmp (r : Byte) : Statement (.jmp r) := fun _ => rfl

end Sys2Proof.Laws.RoundTrip
end

