-- ==== Sys2Proof/Machine/Assembly.lean ====
section
/-! DEFINITION. The assembly text of an instruction, the way the spec writes programs (30_encoding.md R60). It has no effect on the machine. -/

namespace Sys2Proof.Machine

/-- A register operand's name, `R0` to `R7`; a byte above 7 has none (30_encoding.md R60). -/
def regName (b : Byte) : Option (List Char) :=
  if b.toNat ≤ 7 then some ('R' :: decimal b) else none

/-- A mnemonic and its operands, separated by a comma and a space (log entry 12). -/
def asmLine (mnemonic : List Char) : List (List Char) → List Char
  | [] => mnemonic
  | [a] => mnemonic ++ ' ' :: a
  | a :: b :: _ => mnemonic ++ ' ' :: a ++ ',' :: ' ' :: b

/-- The text of an instruction, none where a register operand names no register (30_encoding.md R60). -/
def assembly : Instr → Option (List Char)
  | .ldi r imm => (regName r).map fun n => asmLine ['L', 'D', 'I'] [n, decimal imm]
  | .prn r => (regName r).map fun n => asmLine ['P', 'R', 'N'] [n]
  | .mul u v => some (asmLine ['M', 'U', 'L'] [decimal u, decimal v])
  | .hlt => some (asmLine ['H', 'L', 'T'] [])
  | .push r => (regName r).map fun n => asmLine ['P', 'U', 'S', 'H'] [n]
  | .pop r => (regName r).map fun n => asmLine ['P', 'O', 'P'] [n]
  | .cmp a b => (regName a).bind fun m => (regName b).map fun n => asmLine ['C', 'M', 'P'] [m, n]
  | .jne r => (regName r).map fun n => asmLine ['J', 'N', 'E'] [n]
  | .jeq r => (regName r).map fun n => asmLine ['J', 'E', 'Q'] [n]
  | .jmp r => (regName r).map fun n => asmLine ['J', 'M', 'P'] [n]

end Sys2Proof.Machine
end

