-- ==== Sys2Proof/Tests/Slice0.lean ====
section
/-! SUPPORT. The model's own tests: ill-formed terms refused, words written out from the spec's encodings, small steps with results from 95_test_vectors.md, and a witness for each statement's hypotheses. -/

namespace Sys2Proof.Tests

open Sys2Proof.Machine

/-- A running core after reset with the given cells and pc. -/
def core (cells : Memory) (pc : Nat) : State := { State.reset with mem := cells, pc := pc, status := .running }

/-- The same with two registers set. -/
def core2 (cells : Memory) (pc : Nat) (i j : Fin 8) (v w : Byte) : State := ((core cells pc).setReg i v).setReg j w

/-- The result is a next state with the property. -/
def gives (r : Result) (p : State → Bool) : Bool :=
  match r with
  | .next t => p t
  | .fault _ => false
  | .refused _ => false

/-- The state took a fatal condition: 60_exceptions.md R106. -/
def faulted (c : Condition) (t : State) : Bool := t.status == .faulted c

/-! ### WellFormed refuses (30_encoding.md R52, R56) -/

theorem smoke_ldi : (Instr.ldi 8#8 0#8).wellFormed = false := by decide
theorem smoke_prn : (Instr.prn 255#8).wellFormed = false := by decide
theorem smoke_push : (Instr.push 8#8).wellFormed = false := by decide
theorem smoke_pop : (Instr.pop 16#8).wellFormed = false := by decide
theorem smoke_cmp_first : (Instr.cmp 8#8 0#8).wellFormed = false := by decide
theorem smoke_cmp_second : (Instr.cmp 0#8 9#8).wellFormed = false := by decide
theorem smoke_jne : (Instr.jne 9#8).wellFormed = false := by decide
theorem smoke_jeq : (Instr.jeq 128#8).wellFormed = false := by decide
theorem smoke_jmp : (Instr.jmp 8#8).wellFormed = false := by decide
theorem smoke_free : (Instr.ldi 7#8 255#8).wellFormed = true ∧ (Instr.mul 200#8 9#8).wellFormed = true := by decide

/-! ### Words written out from 30_encoding.md R53 and 41 to 44 -/

theorem decode_word_ldi : decode [0b10000010#8, 0b00000011#8, 0b11110000#8] = .ok (.ldi 3#8 0xF0#8, []) := rfl
theorem decode_word_prn : decode [0b01000111#8, 0b00000101#8] = .ok (.prn 5#8, []) := rfl
theorem decode_word_mul : decode [0b10100010#8, 0b00000010#8, 0b11001000#8] = .ok (.mul 2#8 200#8, []) := rfl
theorem decode_word_hlt : decode [0b00000001#8, 0b01000111#8] = .ok (.hlt, [0x47#8]) := rfl
theorem decode_word_push : decode [0b01000101#8, 0b00000111#8] = .ok (.push 7#8, []) := rfl
theorem decode_word_pop : decode [0b01000110#8, 0b00000001#8] = .ok (.pop 1#8, []) := rfl
theorem decode_word_cmp : decode [0b10100111#8, 0b00000110#8, 0b00000001#8] = .ok (.cmp 6#8 1#8, []) := rfl
theorem decode_word_jne : decode [0b01010110#8, 0b00000100#8] = .ok (.jne 4#8, []) := rfl
theorem decode_word_jeq : decode [0b01010101#8, 0b11111111#8] = .ok (.jeq 255#8, []) := rfl
theorem decode_word_jmp : decode [0b01010100#8, 0b00000010#8] = .ok (.jmp 2#8, []) := rfl

/-- The near misses of 95_test_vectors.md section 2.1 do not decode. -/
theorem decode_near_misses :
    [0x00#8, 0x02#8, 0x44#8, 0x48#8, 0x50#8, 0x11#8, 0x57#8, 0x80#8, 0x83#8, 0xA0#8, 0xA1#8, 0xA3#8, 0xA6#8, 0xA8#8,
      0xC2#8, 0xFF#8].all (fun op => (opcodeMap.find? (fun row => row.code == op)).isNone) = true := by decide

theorem decode_short : decode [] = .error .noBytes ∧ decode [0x82#8, 0#8] = .error (.cutShort 0x82#8) := ⟨rfl, rfl⟩

/-- Each row's word, numbered as the opcode table numbers it, runs as the first instruction after reset. -/
theorem table_word_runs_after_reset :
    gives (step (State.reset.withFetchWord 24 0xFF0682)) (fun t => t.reg 6 == 0xFF#8 && t.pc == 3) = true := by decide

/-! ### Small steps, results from 95_test_vectors.md section 2 -/

theorem test_ldi_at_top : gives (step (core [(253, 0x82#8), (255, 7#8)] 253))
    (fun t => t.reg 0 == 7#8 && t.pc == 256 && t.status == .running) = true := by decide
theorem test_ldi_index : gives (step (core [(0, 0x82#8), (1, 8#8), (2, 1#8)] 0))
    (fun t => faulted (.invalidRegisterIndex 8#8) t && t.pc == 0 && t.out == []) = true := by decide
theorem test_prn_sp : gives (step (core [(0, 0x47#8), (1, 7#8)] 0))
    (fun t => t.out == [.print 244#8] && t.pc == 2) = true := by decide
theorem test_prn_cut : gives (step (core [(255, 0x47#8)] 255))
    (fun t => faulted (.outOfRangeRead 256) t && t.out == [.diagOutOfRange] && t.pc == 255) = true := by decide
theorem test_hlt_at_top : gives (step (core [(255, 1#8)] 255)) (fun t => t.status == .halted && t.pc == 256) = true := by
  decide
theorem test_mul_wraps : gives (step (core2 [(0, 0xA2#8), (1, 200#8), (2, 9#8)] 0 0 1 0xC8#8 2#8))
    (fun t => t.reg 0 == 0x90#8 && t.reg 1 == 2#8 && t.fl == 0#8 && t.pc == 3) = true := by decide
theorem test_mul_cut : gives (step (core2 [(255, 0xA2#8)] 255 0 1 3#8 5#8))
    (fun t => faulted (.outOfRangeRead 256) t && t.reg 0 == 3#8) = true := by decide
theorem test_cmp_unsigned : gives (step (core2 [(0, 0xA7#8), (2, 1#8)] 0 0 1 0xFF#8 1#8))
    (fun t => t.fl == 2#8 && t.pc == 3) = true := by decide
theorem test_cmp_fetch_before_index : gives (step (core [(254, 0xA7#8), (255, 9#8)] 254))
    (fun t => faulted (.outOfRangeRead 256) t && t.fl == 0#8) = true := by decide
theorem test_push_sp : gives (step (core [(0, 0x45#8), (1, 7#8)] 0))
    (fun t => t.reg 7 == 0xF3#8 && t.mem == [(0, 0x45#8), (1, 7#8), (0xF3, 0xF3#8)]) = true := by decide
theorem test_push_wraps : gives (step (core2 [(0, 0x45#8), (1, 2#8)] 0 2 7 0x11#8 0#8))
    (fun t => t.reg 7 == 0xFF#8 && t.mem.read 255 == 0x11#8 && t.out == []) = true := by decide
theorem test_pop_sp : gives (step (core2 [(0, 0x46#8), (1, 7#8), (0xF3, 0x10#8)] 0 0 7 0#8 0xF3#8))
    (fun t => t.reg 7 == 0x11#8 && t.mem.read 0xF3 == 0x10#8) = true := by decide
theorem test_pop_wraps : gives (step (core2 [(0, 0x46#8), (1, 3#8), (255, 0x11#8)] 0 0 7 0#8 0xFF#8))
    (fun t => t.reg 3 == 0x11#8 && t.reg 7 == 0#8) = true := by decide
theorem test_jmp : gives (step (core2 [(12, 0x54#8), (13, 2#8)] 12 2 0 0x13#8 0#8)) (fun t => t.pc == 19) = true := by decide
theorem test_jeq_untaken_at_top : gives (step (core [(255, 0x55#8)] 255))
    (fun t => t.pc == 257 && t.status == .running && t.out == []) = true := by decide
theorem test_jeq_taken : gives (step ((core2 [(28, 0x55#8), (29, 2#8)] 28 2 0 0x20#8 0#8).setFl 1#8)) (fun t => t.pc == 32) = true := by
  decide
theorem test_jne_taken_at_top : gives (step (core [(255, 0x56#8)] 255))
    (fun t => faulted (.outOfRangeRead 256) t && t.pc == 255) = true := by decide
theorem test_jne_untaken_bad_operand : gives (step ((core [(20, 0x56#8), (21, 9#8)] 20).setFl 1#8)) (fun t => t.pc == 22) = true := by
  decide

/-- 95_test_vectors.md section 2.3, the ALU driven directly. -/
theorem test_alu : (aluAdd 0 1 (core2 [] 0 0 1 0xC8#8 0x64#8)).reg 0 = 0x2C#8 ∧
    (aluSub 0 1 (core2 [] 0 0 1 5#8 10#8)).reg 0 = 0xFB#8 ∧ (aluAdd 3 3 (core2 [] 0 3 0 0x81#8 0#8)).reg 3 = 2#8 := by decide

theorem test_decimal : decimal 0#8 = ['0'] ∧ decimal 42#8 = ['4', '2'] ∧ decimal 205#8 = ['2', '0', '5'] := by decide

theorem test_assembly : assembly (.ldi 0#8 8#8) = some ['L', 'D', 'I', ' ', 'R', '0', ',', ' ', '8'] ∧
    assembly (.prn 8#8) = none := by decide

/-- Memory keeps its canonical form: a zero written removes the pair. -/
theorem test_write_zero : Memory.write [(1, 2#8), (5, 6#8)] 1 0#8 = [(5, 6#8)] ∧
    Memory.write [(1, 2#8), (5, 6#8)] 3 4#8 = [(1, 2#8), (3, 4#8), (5, 6#8)] := by decide

/-! ### Witnesses: for each statement with hypotheses, states and operands that meet them, each clause at a boundary -/

theorem witness_DecodingInvertsEncoding : decode [0x82#8, 255#8, 0#8, 1#8] = .ok (.ldi 255#8 0#8, [1#8]) := rfl
theorem witness_BytesOutsideMapAreUnrecognized :
    0#8 ∉ [0x01#8, 0x45#8, 0x46#8, 0x47#8, 0x54#8, 0x55#8, 0x56#8, 0x82#8, 0xA2#8, 0xA7#8] := by decide
theorem witness_PlacedWordIsRunNext : (core [] 253).mem.wf = true ∧ (core [] 253).pc ≤ 253 ∧
    decodeTableWord 24 0x070082 = some (.ldi 0#8 7#8) := by decide
theorem witness_ReadsSeeTheLatestWrite : (core [(255, 1#8)] 0).mem.wf = true ∧ 255 ≤ 255 ∧ 0 ≤ 255 := by decide
theorem witness_OutOfRangeAccessIsReported :
    memRead 256 (core [] 0) = .raised { core [] 0 with out := [.diagOutOfRange], status := .faulted (.outOfRangeRead 256) } ∧
    (memWrite (-1) 5#8 (core [] 0)).out = [.diagOutOfRange] ∧
    gives (step (core [] 257)) (faulted (.outOfRangeRead 257)) = true := by decide
theorem witness_CanonicalMemoryIsDeterminedByItsReads :
    Memory.wf [(0, 1#8), (255, 2#8)] = true ∧ Memory.wf [(256, 1#8)] = false ∧ Memory.wf [(0, 0#8)] = false := by decide

/-- The three places where a register instruction stands: it fits, or its operand byte is cut off. -/
theorem witness_LdiWritesItsImmediate :
    gives (exec (.ldi (regByte 7) 255#8) (core [] 253)) (fun t => t.reg 7 == 255#8 && t.pc == 256) = true ∧
    gives (exec (.ldi 9#8 1#8) (core [] 254)) (faulted (.outOfRangeRead 256)) = true ∧
    gives (exec (.ldi 0#8 1#8) (core [] 255)) (faulted (.outOfRangeRead 256)) = true ∧
    gives (exec (.ldi 8#8 1#8) (core [] 253)) (faulted (.invalidRegisterIndex 8#8)) = true := by decide
theorem witness_PrnPrintsItsRegister :
    gives (exec (.prn (regByte 7)) (core [] 254)) (fun t => t.out == [.print 0xF4#8] && t.pc == 256) = true ∧
    gives (exec (.prn 9#8) (core [] 255)) (faulted (.outOfRangeRead 256)) = true ∧
    gives (exec (.prn 255#8) (core [] 254)) (faulted (.invalidRegisterIndex 255#8)) = true := by decide
theorem witness_MulMultipliesRegisterZeroByOne :
    gives (exec (.mul 255#8 255#8) (core2 [] 253 0 1 255#8 255#8)) (fun t => t.reg 0 == 1#8 && t.pc == 256) = true ∧
    gives (exec (.mul 0#8 1#8) (core [] 254)) (faulted (.outOfRangeRead 256)) = true := by decide
theorem witness_CmpSetsTheFlagsByte :
    gives (exec (.cmp (regByte 0) (regByte 7)) (core [] 253)) (fun t => t.fl == 4#8 && t.pc == 256) = true ∧
    gives (exec (.cmp 7#8 0#8) (core [] 0)) (fun t => t.fl == 2#8) = true ∧
    gives (exec (.cmp 7#8 7#8) (core [] 0)) (fun t => t.fl == 1#8) = true ∧
    gives (exec (.cmp 9#8 9#8) (core [] 255)) (faulted (.outOfRangeRead 256)) = true ∧
    gives (exec (.cmp 10#8 11#8) (core [] 253)) (faulted (.invalidRegisterIndex 10#8)) = true ∧
    gives (exec (.cmp (regByte 7) 8#8) (core [] 253)) (faulted (.invalidRegisterIndex 8#8)) = true := by decide
theorem witness_PushStoresBelowTheStackPointer : (core [] 254).mem.wf = true ∧
    gives (exec (.push (regByte 7)) (core2 [] 254 0 7 0#8 0#8)) (fun t => t.reg 7 == 255#8 && t.mem.read 255 == 255#8) = true ∧
    gives (exec (.push 0#8) (core [] 255)) (faulted (.outOfRangeRead 256)) = true ∧
    gives (exec (.push 8#8) (core [] 254)) (fun t => faulted (.invalidRegisterIndex 8#8) t && t.reg 7 == 0xF4#8) = true := by
  decide
theorem witness_PopLoadsFromTheStackPointer :
    gives (exec (.pop (regByte 0)) (core [] 254)) (fun t => t.reg 7 == 0xF5#8 && t.pc == 256) = true ∧
    gives (exec (.pop (regByte 7)) (core [(0xF4, 255#8)] 254)) (fun t => t.reg 7 == 0#8) = true ∧
    gives (exec (.pop 0#8) (core [] 255)) (faulted (.outOfRangeRead 256)) = true ∧
    gives (exec (.pop 8#8) (core [] 254)) (faulted (.invalidRegisterIndex 8#8)) = true := by decide
theorem witness_JmpSetsPcFromItsRegister :
    gives (exec (.jmp (regByte 7)) (core [] 254)) (fun t => t.pc == 0xF4) = true ∧
    gives (exec (.jmp 0#8) (core [] 255)) (faulted (.outOfRangeRead 256)) = true ∧
    gives (exec (.jmp 8#8) (core [] 254)) (faulted (.invalidRegisterIndex 8#8)) = true := by decide
theorem witness_JeqJumpsWhenEqualIsSet :
    gives (exec (.jeq (regByte 7)) ((core [] 254).setFl 1#8)) (fun t => t.pc == 0xF4) = true ∧
    gives (exec (.jeq 255#8) ((core [] 255).setFl 2#8)) (fun t => t.pc == 257) = true ∧
    gives (exec (.jeq 0#8) ((core [] 255).setFl 1#8)) (faulted (.outOfRangeRead 256)) = true ∧
    gives (exec (.jeq 255#8) ((core [] 254).setFl 1#8)) (faulted (.invalidRegisterIndex 255#8)) = true := by decide
theorem witness_JneJumpsWhenEqualIsClear :
    gives (exec (.jne (regByte 7)) ((core [] 254).setFl 4#8)) (fun t => t.pc == 0xF4) = true ∧
    gives (exec (.jne 255#8) ((core [] 255).setFl 1#8)) (fun t => t.pc == 257) = true ∧
    gives (exec (.jne 0#8) (core [] 255)) (faulted (.outOfRangeRead 256)) = true ∧
    gives (exec (.jne 8#8) (core [] 254)) (faulted (.invalidRegisterIndex 8#8)) = true := by decide

theorem witness_StepRunsTheDecodedInstruction : (core [(253, 0x45#8)] 253).status = .running ∧
    decode [Memory.read [(253, 0x45#8)] 253, Memory.read [(253, 0x45#8)] 254, Memory.read [(253, 0x45#8)] 255] =
      .ok (.push 0#8, [0#8]) := ⟨rfl, rfl⟩
theorem witness_StepNeverUsesBytesPastMemory : (core [(255, 0x55#8)] 255).pc ≤ 255 ∧
    Memory.read [(255, 0x55#8)] 255 = 0x55#8 ∧ decode [0x55#8, 77#8, 88#8] = .ok (.jeq 77#8, [88#8]) := ⟨by decide, rfl, rfl⟩
theorem witness_UnrecognizedOpcodeLoopsForEver :
    (core [] 255).status = .running ∧ (core [] 255).pc ≤ 255 ∧ isOpcode ((core [] 255).mem.read 255) = false := by decide
theorem witness_OpcodeFetchPastMemoryIsFatal :
    (core [] 256).status = .running ∧ 255 < (core [] 256).pc ∧ gives (step (core [] 256)) (faulted (.outOfRangeRead 256)) = true := by
  decide
theorem witness_StepsExactlyWhileRunning : State.reset.status = .idle ∧ (core [] 257).status = .running ∧
    step State.reset = .fault .notStarted := ⟨rfl, rfl, rfl⟩
theorem witness_OnlyHltHalts : gives (step (core [(255, 1#8)] 255)) (fun t => t.status == .halted) = true ∧
    gives (step (core [(0, 0x82#8), (2, 1#8)] 0)) (fun t => t.status == .running) = true := by decide
theorem witness_FatalConditionsArePrecise :
    gives (step (core [(254, 0x82#8)] 254)) (fun t => faulted (.outOfRangeRead 256) t && t.out == [.diagOutOfRange]) = true ∧
    gives (step (core [(0, 0x54#8), (1, 8#8)] 0)) (fun t => faulted (.invalidRegisterIndex 8#8) t && t.out == []) = true := by decide

/-- The invariant holds at its boundaries, and a step from such a state answers a next state. -/
theorem witness_StepKeepsTheInvariant : Inv (core [(255, 0x55#8)] 255) ∧ Inv ((core [] 257).setFl 4#8) ∧
    gives (step (core [(255, 0x55#8)] 255)) (fun t => t.pc == 257) = true :=
  ⟨⟨by decide, by decide, by decide, by decide⟩, ⟨by decide, by decide, by decide, by decide⟩, by decide⟩
theorem witness_HostCommandsKeepTheInvariant : Inv Session.afterReset.core ∧
    (Session.afterReset.command (.load [1])).toOption.isSome = true ∧
    (({ core := .reset, loaded := true } : Session).command .start).toOption.isSome = true ∧
    (Session.afterReset.command .reset).toOption.isSome = true :=
  ⟨⟨by decide, by decide, by decide, by decide⟩, by decide, by decide, by decide⟩
theorem witness_RegistersTouchedAreThoseListed :
    gives (exec (.push 5#8) (core [] 0)) (fun _ => true) = true ∧ (6 : Fin 8).val ∉ regsRead false (.push 5#8) ∧
    (0 : Fin 8).val ∉ regsRead false (.jeq 0#8) := by decide
theorem witness_FlagsAreWrittenByCmpAndReadInBitZero : (core [] 253).pc ≤ 253 ∧ (6#8 : Byte).getLsbD 0 = (core [] 253).fl.getLsbD 0 ∧
    gives (exec (.jeq 0#8) ((core [] 253).setFl 6#8)) (fun t => t.fl == 6#8 && t.pc == 255) = true := by decide
theorem witness_OnlyPushWritesMemory :
    gives (step (core [(0, 0x45#8), (1, 7#8)] 0)) (fun t => t.mem.read 0xF3 != (core [(0, 0x45#8), (1, 7#8)] 0).mem.read 0xF3) = true := by
  decide
theorem witness_OutputIsAppendOnlyAndNeverRead :
    gives (step (core [(254, 0x47#8), (255, 7#8)] 254)) (fun t => t.out == [.print 0xF4#8]) = true ∧
    gives (step (core [(255, 0x47#8)] 255)) (fun t => t.out == [.diagOutOfRange]) = true ∧
    gives (step (core [] 255)) (fun t => t.out == [.diagUnrecognizedOpcode]) = true := by decide
theorem witness_SafeRunsPrintNoDiagnostic :
    SafeRun 1 (core [(0, 0x47#8), (2, 1#8)] 0) ∧
    gives (Sys2Proof.core.run 1 (core [(0, 0x47#8), (2, 1#8)] 0)) (fun t => t.out == [.print 0#8]) = true := by
  refine ⟨Or.inr ⟨rfl, fun h => absurd h.2.2 (by decide),
    ((core [(0, 0x47#8), (2, 1#8)] 0).emit (.print 0#8)).advance 2,
    (step_runs (i := .prn 0#8) (rest := [1#8]) rfl (by decide) rfl).trans (execPrn_ok 0 (by decide)), Or.inl rfl, fun h => absurd h.2.2 (by decide)⟩, by decide⟩
theorem witness_CompareThenBranch :
    let s := core2 [(251, 0xA7#8), (253, 1#8), (254, 0x55#8), (255, 7#8)] 251 0 1 5#8 5#8
    let s' := core2 [(251, 0xA7#8), (253, 1#8), (254, 0x56#8), (255, 7#8)] 251 0 1 5#8 6#8
    s.pc ≤ 251 ∧ s.mem.read 252 = regByte 0 ∧ s.mem.read 253 = regByte 1 ∧ s.mem.read 255 = regByte 7 ∧
    gives (Sys2Proof.core.run 2 s) (fun t => t.pc == 0xF4) = true ∧
    gives (Sys2Proof.core.run 2 s') (fun t => t.pc == 0xF4) = true := by decide
theorem witness_PushThenPop : (core [] 252).mem.wf = true ∧ (core [] 252).pc ≤ 252 := by decide
theorem witness_StoreIsSeenByTheNextFetch :
    let s := core2 [(251, 0x45#8)] 251 0 7 1#8 254#8
    s.mem.wf = true ∧ s.pc ≤ 251 ∧ s.mem.read 251 = 0x45#8 ∧ s.mem.read 252 = regByte 0 ∧ (pushAddr s).toNat = s.pc + 2 ∧
    decode [s.reg 0, s.mem.read 254, s.mem.read 255] = .ok (.hlt, [0#8, 0#8]) :=
  ⟨by decide, by decide, by decide, by decide, by decide, rfl⟩
theorem witness_PushesFillTheStackDownward : (core [] 252).mem.wf = true ∧ (∀ i ∈ [(0 : Fin 8), 6], i ≠ 7) ∧
    (core [] 252).pc + 2 * [(0 : Fin 8), 6].length ≤ 256 := by decide
theorem witness_MulIgnoresItsOperandBytes :
    gives (exec (.mul 255#8 8#8) (core2 [] 253 0 1 0xC8#8 2#8)) (fun t => t.reg 0 == 0x90#8 && t.reg 1 == 2#8 && t.pc == 256) = true ∧
    gives (exec (.mul 0#8 1#8) (core2 [] 0 0 1 0xFF#8 0xFF#8)) (fun t => t.reg 0 == 1#8 && t.pc == 3) = true ∧
    gives (exec (.mul 255#8 8#8) (core [] 254)) (faulted (.outOfRangeRead 256)) = true := by decide
/-- At v = 0 the numeral is not empty. -/
theorem witness_PrintedTextIsTheDecimalNumeral : decimal 0#8 = ['0'] ∧ decimal 100#8 = ['1', '0', '0'] ∧
    decimal 255#8 = ['2', '5', '5'] := by decide
theorem witness_FlagBitsAfterCompare : (core [] 253).pc ≤ 253 ∧
    gives (exec (.cmp 7#8 0#8) (core [] 253)) (fun t => greaterBit t.fl && !lessBit t.fl && !equalBit t.fl) = true := by decide
theorem witness_UnsupportedAluOperationIsFatalAndUnreachable :
    alu (.other 7) 0 1 (core [] 0) = .raised ((core [] 0).setStatus (.faulted (.unsupportedALUOperation 7))) ∧
    gives (step (core [] 0)) (fun _ => true) = true := by decide
theorem witness_LoadInstallsTheProgram : (List.replicate 256 255).length ≤ 256 ∧ (∀ b ∈ [0, 255], b ≤ 255) ∧
    256 < (List.replicate 257 0).length ∧ (∃ b ∈ [256], 255 < b) ∧ (core [] 0).status ≠ .idle ∧
    Session.afterReset.loaded = false := by
  exact ⟨le_of_eq List.length_replicate, by decide, lt_of_lt_of_eq (by decide) List.length_replicate.symm, by decide, by decide, rfl⟩
theorem witness_StartRunsTheCore : ({ core := .reset, loaded := true } : Session).core.status = .idle ∧
    ({ core := core [] 0, loaded := true } : Session).core.status = .running ∧ Session.afterReset.loaded = false ∧
    launch [0x82, 255] = .ok (core [(0, 0x82#8), (1, 255#8)] 0) := by decide

/-- A value above 255 is refused and not reduced, an empty program is launched (70_reset_and_hazards.md R121). -/
theorem test_launch_checks : launch [1, 256] = .error .notByte ∧ launch [] = .ok (core [] 0) := by decide
/-- Exactly one load between reset and start (70_reset_and_hazards.md R121). -/
theorem test_exactly_one_load : Session.afterReset.command .start = .error .notLoaded ∧
    Session.afterReset.commands [.load [], .load []] = .error .alreadyLoaded := by decide
theorem witness_OnlyResetLeavesHaltedAndFaulted :
    ((core [] 0).setStatus .halted).status = .halted ∧
    ((core [] 0).setStatus (.faulted (.outOfRangeRead 256))).status = .faulted (.outOfRangeRead 256) := ⟨rfl, rfl⟩

end Sys2Proof.Tests
end

/-! ### Registers touched (10_state.md R15) and the flag bits of a comparison (10_state.md R19) -/

namespace Sys2Proof.Machine

/-! #### What a register does not write -/

/-- A fatal condition writes no register (60_exceptions.md R106). -/
theorem Raised.sameRegsExcept {s t : State} (h : Raised s t) (l : List Nat) : SameRegsExcept l s t := by
  rcases h with ⟨_, _, _, _, _, rfl⟩ | ⟨_, _, rfl⟩ <;> exact fun _ _ => rfl

/-- A register outside a list is not the one an operand byte on the list names. -/
theorem ne_of_regByte_mem {i k : Fin 8} {l : List Nat} (hk : k.val ∉ l) (hi : (regByte i).toNat ∈ l) : k ≠ i := by
  rintro rfl
  exact hk (regByte_toNat k ▸ hi)

/-- A register outside a list is not register `i` if the list has `i`. -/
theorem ne_of_val_mem {i k : Fin 8} {l : List Nat} (hk : k.val ∉ l) (hi : i.val ∈ l) : k ≠ i := by
  rintro rfl
  exact hk hi

/-- An instruction keeps every register it is not listed to write. -/
theorem exec_sameRegsExcept {i : Instr} {s t : State} (h : exec i s = .next t) :
    SameRegsExcept (regsWritten i) s t := by
  cases i with
  | ldi r imm =>
    rcases execLdi_next h with h | ⟨_, i, rfl, rfl⟩
    · exact h.sameRegsExcept _
    · intro k hk
      have hki : k ≠ i := ne_of_regByte_mem hk (by simp [regsWritten])
      simp [hki]
  | prn r =>
    rcases execPrn_next h with h | ⟨_, _, _, rfl⟩
    · exact h.sameRegsExcept _
    · exact fun _ _ => rfl
  | mul u v =>
    rcases execMul_next h with h | ⟨_, rfl⟩
    · exact h.sameRegsExcept _
    · intro k hk
      have hk0 : k ≠ 0 := ne_of_val_mem hk (by simp [regsWritten])
      simp [hk0]
  | hlt =>
    obtain rfl := execHlt_next h
    exact fun _ _ => rfl
  | push r =>
    rcases execPush_next h with h | ⟨_, i, _, rfl⟩
    · exact h.sameRegsExcept _
    · intro k hk
      have hk7 : k ≠ 7 := ne_of_val_mem hk (by simp [regsWritten])
      obtain ⟨_, _, _, _, hreg, _⟩ := pushReg_fields i s
      simp [hreg, hk7]
  | pop r =>
    rcases execPop_next h with h | ⟨_, i, rfl, rfl⟩
    · exact h.sameRegsExcept _
    · intro k hk
      have hki : k ≠ i := ne_of_regByte_mem hk (by simp [regsWritten])
      have hk7 : k ≠ 7 := ne_of_val_mem hk (by simp [regsWritten])
      exact (popReg_reg i k s).trans (by simp [hki, hk7])
  | cmp a b =>
    rcases execCmp_next h with h | ⟨_, _, _, _, _, rfl⟩
    · exact h.sameRegsExcept _
    · exact fun _ _ => rfl
  | jne r =>
    rcases execJne_next h with ⟨_, rfl⟩ | ⟨_, h | ⟨_, _, _, rfl⟩⟩
    · exact fun _ _ => rfl
    · exact h.sameRegsExcept _
    · exact fun _ _ => rfl
  | jeq r =>
    rcases execJeq_next h with ⟨_, rfl⟩ | ⟨_, h | ⟨_, _, _, rfl⟩⟩
    · exact fun _ _ => rfl
    · exact h.sameRegsExcept _
    · exact fun _ _ => rfl
  | jmp r =>
    rcases execJmp_next h with h | ⟨_, _, _, rfl⟩
    · exact h.sameRegsExcept _
    · exact fun _ _ => rfl

/-! #### Agreement off one register

Two runs of a handler, from `s` and from `s.setReg k v`, are compared check by check: the operand fetches look only at
`pc` and the index checks only at the operand byte, so both runs pass a check or both raise. -/

/-- Two checks give the same value, or raise in states that agree off register `k`. -/
inductive AccessesAgree (k : Fin 8) {α : Type} : Access α → Access α → Prop where
  | value (a : α) : AccessesAgree k (.value a) (.value a)
  | raised {t u : State} : AgreeExceptReg k t u → AccessesAgree k (.raised t) (.raised u)

/-- If the first handler answers a next state, so does the second, and the two agree off register `k`. -/
def ResultsAgree (k : Fin 8) (p q : Result) : Prop :=
  ∀ t, p = .next t → ∃ u, q = .next u ∧ AgreeExceptReg k t u

section
variable {k : Fin 8} {v : Byte} {s t u : State}

theorem ResultsAgree.next (h : AgreeExceptReg k t u) : ResultsAgree k (.next t) (.next u) := by
  rintro _ ⟨⟩
  exact ⟨u, rfl, h⟩

/-- Sequencing keeps agreement; the rest need agree only on a value the check can give. -/
theorem AccessesAgree.andThen {α : Type} {c d : Access α} {f g : α → Result} (h : AccessesAgree k c d)
    (hfg : ∀ a, c = .value a → ResultsAgree k (f a) (g a)) : ResultsAgree k (c.andThen f) (d.andThen g) := by
  cases h with
  | value a => exact hfg a rfl
  | raised h => exact .next h

theorem agreeExceptReg_setReg (s : State) (k : Fin 8) (v : Byte) : AgreeExceptReg k s (s.setReg k v) := by
  refine ⟨fun j hj => ?_, fun _ => rfl, rfl, rfl, rfl, rfl⟩
  simp [ne_of_not_mem_singleton hj]

/-- Writing the same byte to the same register on both sides keeps agreement. -/
theorem AgreeExceptReg.setReg (h : AgreeExceptReg k t u) (i : Fin 8) (w : Byte) :
    AgreeExceptReg k (t.setReg i w) (u.setReg i w) := by
  obtain ⟨hreg, hrest⟩ := h
  refine ⟨fun j hj => ?_, hrest⟩
  simp [hreg j hj]

theorem AgreeExceptReg.advance (h : AgreeExceptReg k t u) (n : Nat) :
    AgreeExceptReg k (t.advance n) (u.advance n) := by
  obtain ⟨hreg, hmem, hfl, hpc, hrest⟩ := h
  exact ⟨hreg, hmem, hfl, congrArg (· + n) hpc, hrest⟩

/-- An operand fetch looks at no register. -/
theorem operandAt_setReg_agrees (n : Nat) (b : Byte) :
    AccessesAgree k (operandAt n b s) (operandAt n b (s.setReg k v)) := by
  by_cases hp : s.pc + n ≤ 255
  · rw [operandAt_cell b s hp, operandAt_cell b (s.setReg k v) hp]
    exact .value b
  · have hp : 255 < s.pc + n := by omega
    rw [operandAt_outside b s hp, operandAt_outside b (s.setReg k v) hp]
    exact .raised (agreeExceptReg_setReg _ k v)

theorem operandAt_eq_value {n : Nat} {b c : Byte} (h : operandAt n b s = .value c) : c = b := by
  unfold operandAt at h
  split at h
  · exact (Access.value.inj h).symm
  · cases h

/-- The check of a register byte looks at no register. -/
theorem regIdx_setReg_agrees (b : Byte) : AccessesAgree k (regIdx b s) (regIdx b (s.setReg k v)) := by
  rcases regByte_or_invalid b with ⟨i, rfl⟩ | hb
  · rw [regIdx_regByte, regIdx_regByte]
    exact .value i
  · rw [regIdx_invalid s hb, regIdx_invalid (s.setReg k v) hb]
    exact .raised (agreeExceptReg_setReg _ k v)

theorem regIdx_eq_value {b : Byte} {i : Fin 8} (h : regIdx b s = .value i) : b = regByte i := by
  rcases regByte_or_invalid b with ⟨j, rfl⟩ | hb
  · rw [regIdx_regByte] at h
    rw [Access.value.inj h]
  · rw [regIdx_invalid s hb] at h
    cases h

/-! Each operand form agrees off register `k` if its effect does, on the registers its operand bytes name. -/

theorem withReg_setReg_agrees (r : Byte) {f g : Fin 8 → Result}
    (h : ∀ i, r = regByte i → ResultsAgree k (f i) (g i)) :
    ResultsAgree k (withReg r s f) (withReg r (s.setReg k v) g) := by
  refine (operandAt_setReg_agrees 1 r).andThen fun b hb => ?_
  obtain rfl := operandAt_eq_value hb
  exact (regIdx_setReg_agrees b).andThen fun i hi => h i (regIdx_eq_value hi)

theorem withRegImm_setReg_agrees (r imm : Byte) {f g : Fin 8 → Byte → Result}
    (h : ∀ i w, ResultsAgree k (f i w) (g i w)) :
    ResultsAgree k (withRegImm r imm s f) (withRegImm r imm (s.setReg k v) g) :=
  (operandAt_setReg_agrees 1 r).andThen fun b _ => (operandAt_setReg_agrees 2 imm).andThen fun w _ =>
    (regIdx_setReg_agrees b).andThen fun i _ => h i w

theorem withRegReg_setReg_agrees (a b : Byte) {f g : Fin 8 → Fin 8 → Result}
    (h : ∀ i j, a = regByte i → b = regByte j → ResultsAgree k (f i j) (g i j)) :
    ResultsAgree k (withRegReg a b s f) (withRegReg a b (s.setReg k v) g) := by
  refine (operandAt_setReg_agrees 1 a).andThen fun c hc => (operandAt_setReg_agrees 2 b).andThen fun d hd => ?_
  obtain rfl := operandAt_eq_value hc
  obtain rfl := operandAt_eq_value hd
  exact (regIdx_setReg_agrees c).andThen fun i hi => (regIdx_setReg_agrees d).andThen fun j hj =>
    h i j (regIdx_eq_value hi) (regIdx_eq_value hj)

theorem withIgnored_setReg_agrees (a b : Byte) {p q : Result} (h : ResultsAgree k p q) :
    ResultsAgree k (withIgnored a b s p) (withIgnored a b (s.setReg k v) q) :=
  (operandAt_setReg_agrees 1 a).andThen fun _ _ => (operandAt_setReg_agrees 2 b).andThen fun _ _ => h

/-! #### The effects -/

/-- A register other than the replaced one reads as before. -/
theorem reg_setReg_of_ne {i : Fin 8} (h : k ≠ i) : (s.setReg k v).reg i = s.reg i := by
  simp [h.symm]

/-- PUSH reads `x[7]` and the register it stores (43_stack.md R90). -/
theorem pushReg_setReg_agrees {i : Fin 8} (h7 : k ≠ 7) (hi : k ≠ i) :
    AgreeExceptReg k (pushReg i s) (pushReg i (s.setReg k v)) := by
  obtain ⟨hpc, hfl, hst, hout, hreg, hmem⟩ := pushReg_fields i s
  obtain ⟨hpc', hfl', hst', hout', hreg', hmem'⟩ := pushReg_fields i (s.setReg k v)
  have haddr : pushAddr (s.setReg k v) = pushAddr s := congrArg (· - 1#8) (reg_setReg_of_ne h7)
  refine ⟨fun j hj => ?_, fun a => ?_, hfl'.trans hfl.symm, hpc'.trans hpc.symm,
    hst'.trans hst.symm, hout'.trans hout.symm⟩
  · rw [hreg, hreg', haddr, reg_setReg_of_ne (ne_of_not_mem_singleton hj).symm]
  · rw [hmem, hmem', haddr, reg_setReg_of_ne hi, State.setReg_mem]

/-- POP reads `x[7]` alone (43_stack.md R91). -/
theorem popReg_setReg_agrees (i : Fin 8) (h7 : k ≠ 7) : AgreeExceptReg k (popReg i s) (popReg i (s.setReg k v)) := by
  refine ⟨fun j hj => ?_, fun _ => rfl, rfl, rfl, rfl, rfl⟩
  rw [popReg_reg, popReg_reg, reg_setReg_of_ne h7, reg_setReg_of_ne (ne_of_not_mem_singleton hj).symm, State.setReg_mem]

/-- A jump through a register reads that register alone (44_jumps.md R95). -/
theorem jumpToReg_setReg_agrees {r : Byte} (hk : k.val ∉ [r.toNat]) :
    ResultsAgree k (jumpToReg r s) (jumpToReg r (s.setReg k v)) := by
  refine withReg_setReg_agrees r fun i hr => .next ?_
  subst hr
  rw [reg_setReg_of_ne (ne_of_regByte_mem hk List.mem_cons_self)]
  exact agreeExceptReg_setReg _ k v

/-- What a register holds that an instruction does not read changes nothing else of its next state. -/
theorem exec_setReg_agrees_of_unread {i : Instr} (hk : k.val ∉ regsRead (equalBit s.fl) i) :
    ResultsAgree k (exec i s) (exec i (s.setReg k v)) := by
  cases i with
  | ldi r imm =>
    rw [exec_ldi, exec_ldi]
    exact withRegImm_setReg_agrees r imm fun i w => .next (((agreeExceptReg_setReg s k v).setReg i w).advance 3)
  | prn r =>
    rw [exec_prn, exec_prn]
    refine withReg_setReg_agrees r fun i hr => .next ?_
    subst hr
    rw [reg_setReg_of_ne (ne_of_regByte_mem hk List.mem_cons_self)]
    exact agreeExceptReg_setReg _ k v
  | mul a b =>
    rw [exec_mul, exec_mul]
    refine withIgnored_setReg_agrees a b (.next ?_)
    have h0 : k ≠ 0 := ne_of_val_mem hk (by simp [regsRead])
    have h1 : k ≠ 1 := ne_of_val_mem hk (by simp [regsRead])
    rw [reg_setReg_of_ne h0, reg_setReg_of_ne h1]
    exact ((agreeExceptReg_setReg s k v).setReg 0 _).advance 3
  | hlt => exact .next (agreeExceptReg_setReg _ k v)
  | push r =>
    rw [exec_push, exec_push]
    refine withReg_setReg_agrees r fun i hr => .next ?_
    subst hr
    have h7 : k ≠ 7 := ne_of_val_mem hk (by simp [regsRead])
    have hi : k ≠ i := ne_of_regByte_mem hk (by simp [regsRead])
    exact (pushReg_setReg_agrees h7 hi).advance 2
  | pop r =>
    rw [exec_pop, exec_pop]
    refine withReg_setReg_agrees r fun i _ => ?_
    have h7 : k ≠ 7 := ne_of_val_mem hk (by simp [regsRead])
    rw [popRead, popRead]
    exact .next ((popReg_setReg_agrees i h7).advance 2)
  | cmp a b =>
    rw [exec_cmp, exec_cmp]
    refine withRegReg_setReg_agrees a b fun i j ha hb => .next ?_
    subst ha hb
    have hi : k ≠ i := ne_of_regByte_mem hk (by simp [regsRead])
    have hj : k ≠ j := ne_of_regByte_mem hk (by simp [regsRead])
    unfold aluCmp
    rw [reg_setReg_of_ne hi, reg_setReg_of_ne hj]
    exact agreeExceptReg_setReg _ k v
  | jne r =>
    rw [exec_jne, exec_jne]
    cases he : equalBit s.fl with
    | true =>
      rw [execJne_notTaken r he, execJne_notTaken r (s := s.setReg k v) he]
      exact .next (agreeExceptReg_setReg _ k v)
    | false =>
      rw [execJne_taken r he, execJne_taken r (s := s.setReg k v) he]
      exact jumpToReg_setReg_agrees (by simpa [he, regsRead] using hk)
  | jeq r =>
    rw [exec_jeq, exec_jeq]
    cases he : equalBit s.fl with
    | true =>
      rw [execJeq_taken r he, execJeq_taken r (s := s.setReg k v) he]
      exact jumpToReg_setReg_agrees (by simpa [he, regsRead] using hk)
    | false =>
      rw [execJeq_notTaken r he, execJeq_notTaken r (s := s.setReg k v) he]
      exact .next (agreeExceptReg_setReg _ k v)
  | jmp r =>
    rw [exec_jmp, exec_jmp]
    exact jumpToReg_setReg_agrees hk

end

/-- Settles O30: the written list from what each handler can leave, the read list by comparing the handler's two runs
check by check. -/
theorem registersTouchedAreThoseListed : Obligations.RegistersTouchedAreThoseListed :=
  fun _ _ t h => ⟨exec_sameRegsExcept h, fun _ _ hk => exec_setReg_agrees_of_unread hk t h⟩

/-! #### The flag bits of a comparison -/

/-- The flags byte of a comparison has one bit set, the one its order names (10_state.md R19). -/
theorem compareFlags_bits (p q : Byte) :
    ((compareFlags p q).getLsbD 0 = true ↔ p = q) ∧
    ((compareFlags p q).getLsbD 1 = true ↔ p.toNat > q.toNat) ∧
    ((compareFlags p q).getLsbD 2 = true ↔ p.toNat < q.toNat) := by
  rw [← BitVec.toNat_inj]
  rcases compareFlags_cases p q with ⟨h, hf⟩ | ⟨h, hf⟩ | ⟨h, hf⟩
  · simp [hf, h]
  · simp [hf, h, h.ne', h.le]
  · simp [hf, h, h.ne, h.le]

/-- Bits 7 to 3 of the flags byte of a comparison are clear (10_state.md R19). -/
theorem compareFlags_high_bits (p q : Byte) {n : Nat} (hn : 3 ≤ n) : (compareFlags p q).getLsbD n = false := by
  have hlt : (compareFlags p q).toNat < 2 ^ 3 := by
    rcases compareFlags_cases p q with ⟨_, hf⟩ | ⟨_, hf⟩ | ⟨_, hf⟩ <;> rw [hf] <;> decide
  exact Nat.testBit_lt_two_pow (hlt.trans_le (Nat.pow_le_pow_right (by decide) hn))

/-- Settles O43, by the bits of the three bytes a comparison can write. -/
theorem flagBitsAfterCompare : Obligations.FlagBitsAfterCompare := by
  intro s i j hp
  obtain ⟨heq, hgt, hlt⟩ := compareFlags_bits (s.reg i) (s.reg j)
  exact ⟨_, execCmp_ok i j hp, heq, hgt, hlt, fun _ => compareFlags_high_bits _ _⟩

end Sys2Proof.Machine

/-! ### The livelock on an unrecognised opcode (40_fetch_dispatch.md R68, R69; 60_exceptions.md R102) -/

namespace Sys2Proof.Machine

section
variable {s : State}

/-- The step of a livelocked core reports the opcode and changes nothing else. -/
theorem Livelocked.step_eq (h : Livelocked s) : step s = .next (s.emit .diagUnrecognizedOpcode) := by
  obtain ⟨hs, hp, hop⟩ := h
  rw [← byteForDecoder_cell hp] at hop
  exact step_unrecognized hs hp (decode_not_opcode _ hop)

/-- Whether a core is livelocked does not depend on its output. -/
theorem Livelocked.emit (h : Livelocked s) (e : Event) : Livelocked (s.emit e) := h

/-- A run of a livelocked core appends one diagnostic a step and changes nothing else, by induction on its length: the
report of the first step leaves the core livelocked. -/
theorem Livelocked.run_eq (h : Livelocked s) (n : Nat) :
    Sys2Proof.core.run n s = .next { s with out := s.out ++ List.replicate n .diagUnrecognizedOpcode } := by
  induction n generalizing s with
  | zero => rw [List.replicate_zero, List.append_nil]; rfl
  | succ n ih =>
    rw [core_run_next n h.step_eq, ih (h.emit _), State.emit_out, List.append_assoc, List.singleton_append,
      ← List.replicate_succ]
    rfl

end

/-- Settles O21: such a core is livelocked, and stays so. -/
theorem unrecognizedOpcodeLoopsForEver : Obligations.UnrecognizedOpcodeLoopsForEver := by
  intro s hs hp hop
  have h : Livelocked s := ⟨hs, hp, hop⟩
  exact ⟨h.step_eq, h.run_eq⟩

end Sys2Proof.Machine

/-! ### The decoder is exactly the encoder's inverse (30_encoding.md sections 3 to 5) -/

namespace Sys2Proof

open Machine (isOpcode isOpcode_cases decode_not_opcode)

/-! #### What each format takes -/

/-- The format's instructions are encoded as the opcode byte and their operand bytes (30_encoding.md R51). -/
def Form.Encodes (op : Byte) : Form → Prop
  | .noOperand i => encode i = [op]
  | .oneOperand mk => ∀ a, encode (mk a) = [op, a]
  | .twoOperands mk => ∀ a b, encode (mk a b) = [op, a, b]

/-- The bytes a format took are the encoding of the instruction it gives. -/
theorem Form.Encodes.eq_of_take {op : Byte} {f : Form} {l rest : List Byte} {i : Instr} (hf : f.Encodes op)
    (h : f.take op l = .ok (i, rest)) : op :: l = encode i ++ rest := by
  match f, l, h with
  | .noOperand _, _, h => cases h; rw [hf]; rfl
  | .oneOperand _, _ :: _, h => cases h; rw [hf]; rfl
  | .twoOperands _, _ :: _ :: _, h => cases h; rw [hf]; rfl

/-- The encoder and the opcode map are the same table. -/
theorem opcodeMap_encodes : ∀ row ∈ opcodeMap, row.form.Encodes row.code := by
  simp [opcodeMap, Form.Encodes, encode]

/-- A format takes its operand bytes or is cut short. -/
theorem Form.take_eq_error {op : Byte} {f : Form} {l : List Byte} {e : DecodeReject} (h : f.take op l = .error e) :
    e = .cutShort op := by
  match f, l, h with
  | .oneOperand _, [], h => cases h; rfl
  | .twoOperands _, [], h => cases h; rfl
  | .twoOperands _, [_], h => cases h; rfl

/-- Bytes that start with one of the ten opcodes decode as that opcode's row says. -/
theorem decode_eq_take {op : Byte} (h : isOpcode op = true) :
    ∃ row ∈ opcodeMap, row.code = op ∧ ∀ l, decode (op :: l) = row.form.take op l := by
  cases hf : opcodeMap.find? (fun row => row.code == op) with
  | some row =>
    have hcode : (row.code == op) = true := List.find?_some (p := fun row : OpcodeRow => row.code == op) hf
    exact ⟨row, List.mem_of_find?_eq_some hf, eq_of_beq hcode, fun l => by simp only [decode, hf]⟩
  | none => rcases isOpcode_cases h with rfl | rfl | rfl | rfl | rfl | rfl | rfl | rfl | rfl | rfl <;> cases hf

/-! #### The round trip -/

/-- The bytes a decoder took are the encoding of what it gives. -/
theorem eq_encode_append_of_decode {bytes rest : List Byte} {i : Instr} (h : decode bytes = .ok (i, rest)) :
    bytes = encode i ++ rest := by
  match bytes, h with
  | [], h => cases h
  | op :: l, h =>
    cases hop : isOpcode op with
    | false =>
      rw [decode_not_opcode _ hop] at h
      cases h
    | true =>
      obtain ⟨row, hrow, rfl, htake⟩ := decode_eq_take hop
      exact (opcodeMap_encodes row hrow).eq_of_take ((htake l).symm.trans h)

/-- The encoding of an instruction decodes to it, whatever follows. -/
theorem decode_encode_append (i : Instr) : Laws.RoundTrip.Statement i := by
  cases i with
  | ldi r imm => exact Laws.RoundTrip.ldi r imm
  | prn r => exact Laws.RoundTrip.prn r
  | mul u v => exact Laws.RoundTrip.mul u v
  | hlt => exact Laws.RoundTrip.hlt
  | push r => exact Laws.RoundTrip.push r
  | pop r => exact Laws.RoundTrip.pop r
  | cmp a b => exact Laws.RoundTrip.cmp a b
  | jne r => exact Laws.RoundTrip.jne r
  | jeq r => exact Laws.RoundTrip.jeq r
  | jmp r => exact Laws.RoundTrip.jmp r

/-- Settles O2: one direction because the encoder follows the opcode's row, the other from each instruction's round
trip. -/
theorem decodingInvertsEncoding : Obligations.DecodingInvertsEncoding := by
  intro bytes rest i
  constructor
  · exact eq_encode_append_of_decode
  · rintro rfl
    exact decode_encode_append i rest

/-! #### Unrecognised opcodes -/

/-- A list of bytes is rejected as unrecognised exactly when its first byte is no opcode (30_encoding.md R55). -/
theorem decode_eq_unrecognized_iff (op : Byte) (l : List Byte) :
    decode (op :: l) = .error (.unrecognizedOpcode op) ↔ isOpcode op = false := by
  constructor
  · intro h
    cases hop : isOpcode op with
    | false => rfl
    | true =>
      obtain ⟨row, _, _, htake⟩ := decode_eq_take hop
      rw [htake] at h
      cases Form.take_eq_error h
  · exact decode_not_opcode l

/-- The ten opcode bytes in rising order. -/
theorem isOpcode_eq_false_iff (op : Byte) :
    isOpcode op = false ↔
      op ∉ [0x01#8, 0x45#8, 0x46#8, 0x47#8, 0x54#8, 0x55#8, 0x56#8, 0x82#8, 0xA2#8, 0xA7#8] := by
  simp only [isOpcode, List.contains_eq_mem, decide_eq_false_iff_not, List.mem_cons, List.not_mem_nil, or_false]
  tauto

/-- Settles O3: the decoder's first clause through `isOpcode`, the number by counting the 256 bytes. -/
theorem bytesOutsideMapAreUnrecognized : Obligations.BytesOutsideMapAreUnrecognized :=
  ⟨fun op l => (decode_eq_unrecognized_iff op l).trans (isOpcode_eq_false_iff op), by decide +kernel⟩

/-! #### The opcode table's words -/

/-- A two-byte word, opcode lowest. -/
theorem tableBytes_two (op : Nat) (hop : op < 256) (a : Byte) :
    tableBytes 16 (op + 256 * a.toNat) = [BitVec.ofNat 8 op, a, 0#8] := by
  have ha := a.isLt
  have hmod : (op + 256 * a.toNat) % 2 ^ 16 = op + 256 * a.toNat := Nat.mod_eq_of_lt (by omega)
  simp only [tableBytes, hmod, List.cons.injEq, and_true]
  refine ⟨?_, ?_, ?_⟩ <;> apply BitVec.eq_of_toNat_eq <;> simp only [BitVec.toNat_ofNat] <;> omega

/-- A three-byte word, opcode lowest. -/
theorem tableBytes_three (op : Nat) (hop : op < 256) (a b : Byte) :
    tableBytes 24 (op + 256 * a.toNat + 65536 * b.toNat) = [BitVec.ofNat 8 op, a, b] := by
  have ha := a.isLt
  have hb := b.isLt
  have hmod : (op + 256 * a.toNat + 65536 * b.toNat) % 2 ^ 24 = op + 256 * a.toNat + 65536 * b.toNat :=
    Nat.mod_eq_of_lt (by omega)
  simp only [tableBytes, hmod, List.cons.injEq, and_true]
  refine ⟨?_, ?_, ?_⟩ <;> apply BitVec.eq_of_toNat_eq <;> simp only [BitVec.toNat_ofNat] <;> omega

theorem decodeTableWord_of_decode {nbits w : Nat} {bytes rest : List Byte} {i : Instr}
    (hb : tableBytes nbits w = bytes) (hd : decode bytes = .ok (i, rest)) : decodeTableWord nbits w = some i := by
  simp only [decodeTableWord, hb, hd]

theorem decode_of_decodeTableWord {nbits w : Nat} {i : Instr} (h : decodeTableWord nbits w = some i) :
    ∃ rest, decode (tableBytes nbits w) = .ok (i, rest) := by
  unfold decodeTableWord at h
  split at h
  case h_1 j rest hd =>
    cases h
    exact ⟨rest, hd⟩
  case h_2 => cases h

/-- Settles O4: the word's bytes by arithmetic, then each opcode's decoding. -/
theorem tableWordsDecode : Obligations.TableWordsDecode := by
  intro a b
  have two (op : Nat) (hop : op < 256) {i : Instr} {rest : List Byte}
      (hd : decode [BitVec.ofNat 8 op, a, 0#8] = .ok (i, rest)) :
      decodeTableWord 16 (op + 256 * a.toNat) = some i := decodeTableWord_of_decode (tableBytes_two op hop a) hd
  have three (op : Nat) (hop : op < 256) {i : Instr} {rest : List Byte}
      (hd : decode [BitVec.ofNat 8 op, a, b] = .ok (i, rest)) :
      decodeTableWord 24 (op + 256 * a.toNat + 65536 * b.toNat) = some i :=
    decodeTableWord_of_decode (tableBytes_three op hop a b) hd
  exact ⟨three 0x82 (by decide) (decode_ldi a b []), two 0x47 (by decide) (decode_prn a _),
    three 0xA2 (by decide) (decode_mul a b []), decodeTableWord_of_decode rfl (decode_hlt _),
    two 0x45 (by decide) (decode_push a _), two 0x46 (by decide) (decode_pop a _),
    three 0xA7 (by decide) (decode_cmp a b []), two 0x56 (by decide) (decode_jne a _),
    two 0x55 (by decide) (decode_jeq a _), two 0x54 (by decide) (decode_jmp a _)⟩

/-- Settles O1: each row's decoding with no bytes after it. -/
theorem writtenWordsDecode : Obligations.WrittenWordsDecode := fun a b =>
  ⟨decode_ldi a b [], decode_prn a [], decode_mul a b [], decode_hlt [], decode_push a [], decode_pop a [],
    decode_cmp a b [], decode_jne a [], decode_jeq a [], decode_jmp a []⟩

end Sys2Proof

/-! ### What every step keeps, and what a step can end in (10_state.md, 40_fetch_dispatch.md, 60_exceptions.md) -/

namespace Sys2Proof.Machine

/-! #### The invariant -/

section
variable {s t : State}

/-- A fatal condition at an operand fetch or an index check is one a program can raise. -/
theorem Raised.inv (h : Raised s t) (hp : s.pc ≤ 255) (hi : Inv s) : Inv t := by
  rcases h with ⟨addr, _, _, haddr, _, rfl⟩ | ⟨b, hb, rfl⟩
  · exact ⟨hi.mem, hi.pc, hi.fl, by simp [Status.legal, Condition.fromProgram, haddr hp]⟩
  · exact ⟨hi.mem, hi.pc, hi.fl, by simp [Status.legal, Condition.fromProgram, hb]⟩

/-- A completed handler keeps the invariant: its pc is at most 2 past its own address or a register's value. -/
theorem Completed.inv {i : Instr} (h : Completed i s t) (hp : s.pc ≤ 255) (hi : Inv s) : Inv t where
  mem := h.wf hi.mem
  pc := by
    change t.pc ≤ 257
    rcases h.pc with h | h <;> omega
  fl := by
    rcases h.fl with h | h
    · exact h ▸ hi.fl
    · exact Or.inr h
  status := by
    rcases h.status with h | ⟨_, h⟩
    · exact h ▸ hi.status
    · rw [h]; rfl

/-- An opcode fetch past memory is at address 256 or 257 when pc is at most 257. -/
theorem inv_of_fetch_outside (hp : 255 < s.pc) (hi : Inv s) :
    Inv ((s.emit .diagOutOfRange).raise (.outOfRangeRead (s.pc : Int))) := by
  have hpc : s.pc ≤ 257 := hi.pc
  have haddr : (s.pc : Int) = 256 ∨ (s.pc : Int) = 257 := by omega
  exact ⟨hi.mem, hi.pc, hi.fl, by simpa [Status.legal, Condition.fromProgram] using haddr⟩

end

/-- Settles O27: a step runs a handler, which raises or completes, reports an unrecognised opcode, or fails its own
fetch. -/
theorem stepKeepsTheInvariant : Obligations.StepKeepsTheInvariant := by
  intro s t hi h
  obtain ⟨-, ⟨hp, i, _, _, he⟩ | ⟨_, _, rfl⟩ | ⟨hp, rfl⟩⟩ := step_cases h
  · rcases exec_cases he with h | h
    · exact h.inv hp hi
    · exact h.inv hp hi
  · exact ⟨hi.mem, hi.pc, hi.fl, hi.status⟩
  · exact inv_of_fetch_outside hp hi

/-- Settles O28: each part of the invariant is read off the reset state. -/
theorem resetMeetsTheInvariant : Obligations.ResetMeetsTheInvariant :=
  ⟨Memory.wf_nil, Nat.zero_le _, Or.inl rfl, rfl⟩

/-- Settles O29: a load stores bytes, which keeps the form of memory, and reset and start do not touch memory's form, pc
or flags. -/
theorem hostCommandsKeepTheInvariant : Obligations.HostCommandsKeepTheInvariant := by
  intro u v c hi h
  cases c with
  | reset =>
    obtain ⟨-, rfl⟩ := Session.reset_eq_ok_iff.mp h
    exact resetMeetsTheInvariant
  | load program =>
    obtain ⟨-, t, ht, rfl⟩ := Session.load_eq_ok_iff.mp h
    obtain ⟨-, -, -, rfl⟩ := State.install_eq_ok_iff.mp ht
    exact ⟨Memory.wf_storeBytes _ _ hi.mem, hi.pc, hi.fl, hi.status⟩
  | start =>
    obtain ⟨-, -, rfl⟩ := Session.start_eq_ok_iff.mp h
    exact ⟨hi.mem, hi.pc, hi.fl, rfl⟩

/-! #### Steps are taken exactly while Running -/

theorem jumpToReg_total (r : Byte) (s : State) : ∃ t, jumpToReg r s = .next t :=
  withReg_total r s fun _ => ⟨_, rfl⟩

/-- Settles O24, through the operand forms: each answers a next state if its effect does. -/
theorem everyInstructionAnswersANextState : Obligations.EveryInstructionAnswersANextState := by
  intro i s
  cases i with
  | ldi r imm =>
    rw [exec_ldi]
    exact withRegImm_total r imm s fun _ _ => ⟨_, rfl⟩
  | prn r =>
    rw [exec_prn]
    exact withReg_total r s fun _ => ⟨_, rfl⟩
  | mul u v =>
    rw [exec_mul]
    exact withIgnored_total u v s ⟨_, rfl⟩
  | hlt => exact ⟨_, rfl⟩
  | push r =>
    rw [exec_push]
    exact withReg_total r s fun _ => ⟨_, rfl⟩
  | pop r =>
    rw [exec_pop]
    exact withReg_total r s fun i => ⟨(popReg i s).advance 2, by rw [popRead]; rfl⟩
  | cmp a b =>
    rw [exec_cmp]
    exact withRegReg_total a b s fun _ _ => ⟨_, rfl⟩
  | jne r =>
    rw [exec_jne]
    cases he : equalBit s.fl with
    | true => exact ⟨_, execJne_notTaken r he⟩
    | false => exact execJne_taken r he ▸ jumpToReg_total r s
  | jeq r =>
    rw [exec_jeq]
    cases he : equalBit s.fl with
    | true => exact execJeq_taken r he ▸ jumpToReg_total r s
    | false => exact ⟨_, execJeq_notTaken r he⟩
  | jmp r => exact jumpToReg_total r s

/-- A running core always takes a step (40_fetch_dispatch.md R65). -/
theorem step_total {s : State} (hs : s.status = .running) : ∃ t, step s = .next t := by
  by_cases hp : s.pc ≤ 255
  · cases hd : decode (fetchWindow s.mem s.pc) with
    | ok p =>
      rw [step_runs (rest := p.2) hs hp hd]
      exact everyInstructionAnswersANextState p.1 s
    | error e => exact ⟨_, step_unrecognized hs hp hd⟩
  · exact ⟨_, step_outside hs (by omega)⟩

/-- A step leads to Running, Halted or Faulted. -/
theorem status_of_step {s t : State} (h : step s = .next t) :
    t.status = .running ∨ t.status = .halted ∨ ∃ c, t.status = .faulted c := by
  obtain ⟨hs, ⟨_, i, _, _, he⟩ | ⟨_, _, rfl⟩ | ⟨_, rfl⟩⟩ := step_cases h
  · rcases exec_cases he with (⟨_, _, _, _, _, rfl⟩ | ⟨_, _, rfl⟩) | hc
    · exact Or.inr (Or.inr ⟨_, rfl⟩)
    · exact Or.inr (Or.inr ⟨_, rfl⟩)
    · rcases hc.status with hst | ⟨_, hst⟩
      · exact Or.inl (hst.trans hs)
      · exact Or.inr (Or.inl hst)
  · exact Or.inl hs
  · exact Or.inr (Or.inr ⟨_, rfl⟩)

theorem step_idle {s : State} (hs : s.status = .idle) : step s = .fault .notStarted := by
  simp [step, fetch, hs]

theorem step_halted {s : State} (hs : s.status = .halted) : step s = .fault .halted := by
  simp [step, fetch, hs]

theorem step_faulted {s : State} {c : Condition} (hs : s.status = .faulted c) : step s = .fault (.faulted c) := by
  simp [step, fetch, hs]

/-- Settles O23: totality while Running, the three other statuses from the fetch. -/
theorem stepsExactlyWhileRunning : Obligations.StepsExactlyWhileRunning := by
  intro s
  refine ⟨fun hs => ?_, step_idle, step_halted, fun _ => step_faulted⟩
  obtain ⟨t, ht⟩ := step_total hs
  exact ⟨t, ht, status_of_step ht⟩

/-! #### Fatal conditions -/

/-- A failed opcode fetch is taken precisely (60_exceptions.md R106). -/
theorem fetch_outside_precise (s : State) (addr : Int) :
    FaultsPrecisely (.outOfRangeRead addr) [.diagOutOfRange] s
      ((s.emit .diagOutOfRange).raise (.outOfRangeRead addr)) :=
  ⟨rfl, rfl, rfl, rfl, fun _ _ => rfl, fun _ => rfl⟩

/-- Settles O22. -/
theorem opcodeFetchPastMemoryIsFatal : Obligations.OpcodeFetchPastMemoryIsFatal := fun s hs hp =>
  ⟨_, step_outside hs hp, fetch_outside_precise s s.pc⟩

/-- A running core does not end Faulted by a handler that completes. -/
theorem Completed.not_faulted {i : Instr} {s t : State} {c : Condition} (h : Completed i s t)
    (hs : s.status = .running) : t.status ≠ .faulted c := by
  rcases h.status with hst | ⟨_, hst⟩ <;> simp [hst, hs]

/-- Settles O26: only a handler that raises and a failed opcode fetch end Faulted, and each does so precisely. -/
theorem fatalConditionsArePrecise : Obligations.FatalConditionsArePrecise := by
  intro s t c h hc
  have same {d : Condition} {events : List Event} (hd : FaultsPrecisely d events s t) : c = d :=
    Status.faulted.inj (hc.symm.trans hd.1)
  obtain ⟨hs, ⟨_, i, _, _, he⟩ | ⟨_, _, rfl⟩ | ⟨hp, rfl⟩⟩ := step_cases h
  · rcases exec_cases he with hr | hcomp
    · rcases hr.precise with ⟨addr, ha, _, hd⟩ | ⟨b, hb, hd⟩
      · obtain rfl := same hd
        exact Or.inl ⟨addr, ha, rfl, hd⟩
      · obtain rfl := same hd
        exact Or.inr ⟨b, hb, rfl, hd⟩
    · exact absurd hc (hcomp.not_faulted hs)
  · cases hs.symm.trans hc
  · have hd := fetch_outside_precise s s.pc
    obtain rfl := same hd
    exact Or.inl ⟨s.pc, by omega, rfl, hd⟩

/-- An ALU selector outside the supported set is taken precisely (60_exceptions.md R106). -/
theorem raiseSelector_precise (s : State) (n : Nat) :
    FaultsPrecisely (.unsupportedALUOperation n) [] s (s.raise (.unsupportedALUOperation n)) :=
  ⟨rfl, (List.append_nil s.out).symm, rfl, rfl, fun _ _ => rfl, fun _ => rfl⟩

/-- Settles O42: the ALU raises it, and a step that ends Faulted does so by one of the two other conditions. -/
theorem unsupportedAluOperationIsFatalAndUnreachable : Obligations.UnsupportedAluOperationIsFatalAndUnreachable := by
  refine ⟨fun n a b s => ⟨_, rfl, raiseSelector_precise s n⟩, fun s t n h hc => ?_⟩
  rcases fatalConditionsArePrecise s t _ h hc with ⟨_, _, h, _⟩ | ⟨_, _, h, _⟩ <;> cases h

/-! #### What the opcode byte says of a step -/

/-- The first byte of the window decides which instruction runs, and the second is a register operand. -/
theorem decode_fetchWindow {s : State} {i : Instr} {rest : List Byte} (hp : s.pc ≤ 255)
    (hd : decode (fetchWindow s.mem s.pc) = .ok (i, rest)) :
    isOpcode (s.mem.read s.pc) = true ∧ (i = .hlt ↔ s.mem.read s.pc = 0x01#8) ∧
      (∀ r, i = .push r → s.mem.read s.pc = 0x45#8) ∧
      (∀ r, i = .prn r → s.mem.read s.pc = 0x47#8 ∧ byteForDecoder s.mem (s.pc + 1) = r) := by
  rw [← byteForDecoder_cell hp]
  exact decode_first_byte hd

/-- The window is rejected exactly when the byte at pc is no opcode. -/
theorem decode_fetchWindow_error {s : State} (hp : s.pc ≤ 255) :
    (∃ e, decode (fetchWindow s.mem s.pc) = .error e) ↔ isOpcode (s.mem.read s.pc) = false := by
  rw [← byteForDecoder_cell hp]
  exact decode_window_error

theorem isOpcode_hlt : isOpcode 0x01#8 = true := by decide

/-- A handler of a running core ends Halted exactly if it is HLT's. -/
theorem halted_iff_of_exec {i : Instr} {s t : State} (h : exec i s = .next t) (hs : s.status = .running) :
    t.status = .halted ↔ i = .hlt := by
  rcases exec_cases h with hr | hc
  · constructor
    · intro ht
      rcases hr.precise with ⟨_, _, _, hst, _⟩ | ⟨_, _, hst, _⟩ <;> cases ht.symm.trans hst
    · rintro rfl
      obtain rfl := execHlt_next h
      rfl
  · refine ⟨fun ht => ?_, hc.halts⟩
    rcases hc.status with hst | ⟨hi, _⟩
    · cases (ht.symm.trans hst).trans hs
    · exact hi

/-- Settles O25: the step that halts ran HLT, and HLT is the instruction of the byte 0x01. -/
theorem onlyHltHalts : Obligations.OnlyHltHalts := by
  intro s t h
  obtain ⟨hs, ⟨hp, i, _, hd, he⟩ | ⟨hp, herr, rfl⟩ | ⟨hp, rfl⟩⟩ := step_cases h
  · obtain ⟨_, hhlt, _⟩ := decode_fetchWindow hp hd
    simp [halted_iff_of_exec he hs, hhlt, hp]
  · have hop := (decode_fetchWindow_error hp).mp herr
    have hst : (unrecognized s).status = .running := hs
    constructor
    · intro ht
      cases ht.symm.trans hst
    · rintro ⟨_, hb⟩
      rw [hb, isOpcode_hlt] at hop
      cases hop
  · have hp' : ¬ s.pc ≤ 255 := by omega
    simp [hp']

/-- A handler that raised left memory alone. -/
theorem Raised.mem_eq {s t : State} (h : Raised s t) : t.mem = s.mem := by
  rcases h with ⟨_, _, _, _, _, rfl⟩ | ⟨_, _, rfl⟩ <;> rfl

/-- Settles O32: of everything a step can be, only a completed PUSH changes a cell. -/
theorem onlyPushWritesMemory : Obligations.OnlyPushWritesMemory := by
  intro s t a h hne
  obtain ⟨_, ⟨hp, i, _, hd, he⟩ | ⟨_, _, rfl⟩ | ⟨_, rfl⟩⟩ := step_cases h
  · rcases exec_cases he with hr | hc
    · exact absurd (by rw [hr.mem_eq]) hne
    · rcases hc.mem with hsame | ⟨⟨r, hr⟩, hother⟩
      · exact absurd (hsame a) hne
      · obtain ⟨_, _, hpush, _⟩ := decode_fetchWindow hp hd
        exact ⟨hp, hpush r hr, by_contra fun ha => hne (hother a ha)⟩
  · exact absurd rfl hne
  · exact absurd rfl hne

/-! #### The statuses only reset leaves -/

/-- What is not accepted is refused. -/
theorem exists_error {ε α : Type} {x : Except ε α} (h : ∀ a, x ≠ .ok a) : ∃ e, x = .error e := by
  cases x with
  | error e => exact ⟨e, rfl⟩
  | ok a => exact absurd rfl (h a)

/-- A load is refused after the first, or outside Idle. -/
theorem load_refused {u : Session} (h : u.loaded = true ∨ u.core.status ≠ .idle) (program : List Nat) :
    ∃ e, u.command (.load program) = .error e := by
  refine exists_error fun v hv => ?_
  obtain ⟨hl, t, ht, -⟩ := Session.load_eq_ok_iff.mp hv
  obtain ⟨hidle, -⟩ := State.install_eq_ok_iff.mp ht
  rcases h with h | h
  · cases hl.symm.trans h
  · exact h hidle

/-- A start is refused outside Idle, or without the load. -/
theorem start_refused {u : Session} (h : u.core.status ≠ .idle ∨ u.loaded = false) :
    ∃ e, u.command .start = .error e := by
  refine exists_error fun v hv => ?_
  obtain ⟨hl, hidle, -⟩ := Session.start_eq_ok_iff.mp hv
  rcases h with h | h
  · exact h hidle
  · cases hl.symm.trans h

/-- Settles O48: no step is taken in the two statuses, load and start ask for Idle, and reset is accepted. -/
theorem onlyResetLeavesHaltedAndFaulted : Obligations.OnlyResetLeavesHaltedAndFaulted := by
  intro u hu
  have notIdle : u.core.status ≠ .idle := by rcases hu with h | ⟨_, h⟩ <;> simp [h]
  have notRunning : u.core.status ≠ .running := by rcases hu with h | ⟨_, h⟩ <;> simp [h]
  exact ⟨fun t ht => notRunning (step_cases ht).1, load_refused (Or.inr notIdle), start_refused (Or.inl notIdle), _,
    Session.reset_eq_ok_iff.mpr ⟨notRunning, rfl⟩, rfl⟩

end Sys2Proof.Machine

/-! ### Memory (20_memory.md) and the step that runs the decoded instruction (40_fetch_dispatch.md) -/

namespace Sys2Proof.Machine

/-! #### Reads and writes -/

/-- Settles O6: a cell's read is the list's, before and after the write. -/
theorem readsSeeTheLatestWrite : Obligations.ReadsSeeTheLatestWrite := by
  intro s a b v hm ha hb
  refine ⟨s.mem.read b, memRead_cell s hb, ?_⟩
  rw [memWrite_cell v s ha, memRead_cell _ hb]
  by_cases hba : b = a
  · subst hba
    rw [if_pos rfl, Memory.read_write_same v hm]
  · rw [if_neg hba, Memory.read_write_other s.mem v hba]

/-- Settles O7: 256 and -1 lie outside memory, a core at pc 256 reads there, and no step raises a read below 256. -/
theorem outOfRangeAccessIsReported : Obligations.OutOfRangeAccessIsReported := by
  refine ⟨fun s addr v ha => ?_, ?_, fun s t h hst => ?_⟩
  · have hout : addr < 0 ∨ 255 < addr := by omega
    rw [memWrite_outside v s hout]
    exact ⟨⟨_, memRead_outside s hout, fetch_outside_precise s addr⟩, rfl, fun _ => rfl, rfl, rfl, rfl, fun _ _ => rfl⟩
  · let s : State := { State.reset with pc := 256, status := .running }
    exact ⟨s, (s.emit .diagOutOfRange).raise (.outOfRangeRead 256),
      ⟨Memory.wf_nil, by decide, Or.inl rfl, rfl⟩, step_outside rfl (by decide), rfl⟩
  · rcases fatalConditionsArePrecise s t _ h hst with ⟨addr, ha, hc, _⟩ | ⟨_, _, hc, _⟩
    · cases hc
      omega
    · cases hc

/-! #### The canonical form has one list for each function from addresses to bytes -/

theorem Memory.wfFrom_cons {lo a : Nat} {v : Byte} {m : Memory} :
    wfFrom lo ((a, v) :: m) = true ↔ lo ≤ a ∧ a < 256 ∧ v ≠ 0#8 ∧ wfFrom (a + 1) m = true := by
  simp only [wfFrom, Bool.and_eq_true, decide_eq_true_eq, and_assoc]

theorem Memory.read_head (a : Nat) (v : Byte) (m : Memory) : Memory.read ((a, v) :: m) a = v := if_pos rfl

/-- Where a canonical list reads as its first pair's byte, another canonical list that reads alike has a pair no later
than there. -/
theorem Memory.head_le_of_read_eq {lo lo' a b : Nat} {v w : Byte} {m n : Memory}
    (hm : wfFrom lo ((a, v) :: m) = true) (hn : wfFrom lo' ((b, w) :: n) = true)
    (h : Memory.read ((a, v) :: m) a = Memory.read ((b, w) :: n) a) : b ≤ a := by
  obtain ⟨_, _, hv, _⟩ := wfFrom_cons.mp hm
  obtain ⟨_, hb, hw, hn⟩ := wfFrom_cons.mp hn
  by_contra hlt
  rw [read_head, read_below (lo := b) (wfFrom_cons.mpr ⟨le_rfl, hb, hw, hn⟩) (by omega)] at h
  exact hv h

/-- A canonical list that reads as reset everywhere is empty. -/
theorem Memory.ne_cons_of_read_reset {lo a : Nat} {v : Byte} {m : Memory} (hm : wfFrom lo ((a, v) :: m) = true) :
    Memory.read ((a, v) :: m) a ≠ Memory.read [] a := by
  obtain ⟨_, _, hv, _⟩ := wfFrom_cons.mp hm
  rw [read_head]
  exact hv

/-- Two canonical lists that read alike have the same first pair, and their rests read alike. -/
theorem Memory.eq_of_read_eq {lo lo' : Nat} {m n : Memory} (hm : wfFrom lo m = true) (hn : wfFrom lo' n = true)
    (h : ∀ a, m.read a = n.read a) : m = n := by
  induction m generalizing n lo lo' with
  | nil =>
    cases n with
    | nil => rfl
    | cons q n => exact absurd (h q.1).symm (ne_cons_of_read_reset hn)
  | cons p m ih =>
    cases n with
    | nil => exact absurd (h p.1) (ne_cons_of_read_reset hm)
    | cons q n =>
      obtain ⟨a, v⟩ := p
      obtain ⟨b, w⟩ := q
      obtain rfl : a = b :=
        Nat.le_antisymm (head_le_of_read_eq hn hm (h b).symm) (head_le_of_read_eq hm hn (h a))
      obtain ⟨_, _, _, hm⟩ := wfFrom_cons.mp hm
      obtain ⟨_, _, _, hn⟩ := wfFrom_cons.mp hn
      have hvw : v = w := by simpa only [read_head] using h a
      have hrest : ∀ c, Memory.read m c = Memory.read n c := by
        intro c
        by_cases hc : c = a
        · subst hc
          rw [read_below hm (Nat.lt_succ_self c), read_below hn (Nat.lt_succ_self c)]
        · simpa only [read, if_neg hc] using h c
      rw [hvw, ih hm hn hrest]

/-- Settles O8. -/
theorem canonicalMemoryIsDeterminedByItsReads : Obligations.CanonicalMemoryIsDeterminedByItsReads :=
  fun _ _ => Memory.eq_of_read_eq

/-! #### The decoded instruction runs -/

/-- Settles O19: three bytes in memory are the decoder's window. -/
theorem stepRunsTheDecodedInstruction : Obligations.StepRunsTheDecodedInstruction := by
  intro s i rest hs hp hd
  rw [← fetchWindow_inside hp] at hd
  exact step_runs hs (by omega) hd

/-- Settles O5: the cells at pc to pc + 2 hold the placed word's bytes. -/
theorem placedWordIsRunNext : Obligations.PlacedWordIsRunNext := by
  intro s nbits w i hm hp hw
  obtain ⟨rest, hd⟩ := decode_of_decodeTableWord hw
  have hread : ∀ k (hk : k < 3), (s.withFetchWord nbits w).mem.read (s.pc + k) = (tableBytes nbits w)[k] := by
    intro k hk
    change (storeBytes s.mem s.pc (tableBytes nbits w)).read (s.pc + k) = _
    rw [Memory.read_storeBytes _ _ hm (by change s.pc + 3 ≤ 256; omega), if_pos (by omega), Nat.add_sub_cancel_left]
    exact (List.getElem_eq_getD _).symm
  refine stepRunsTheDecodedInstruction (s.withFetchWord nbits w) i rest rfl hp ?_
  rw [State.placed_pc, hread 1 (by decide), hread 2 (by decide), ← hd, ← Nat.add_zero s.pc, hread 0 (by decide)]
  rfl

/-! Past pc 253 a three-byte handler raises before it looks at a byte the memory does not hold; past pc 254 so does a
two-byte handler that fetches its operand. -/

section
variable {s : State} {b c b' c' : Byte}

/-- The handler of a register instruction looks at its operand byte only where memory holds it. -/
theorem withReg_congr (k : Fin 8 → Result) (hp : s.pc ≤ 255) (hb : s.pc ≤ 254 → b' = b) :
    withReg b' s k = withReg b s k := by
  by_cases h : s.pc ≤ 254
  · rw [hb h]
  · rw [withReg_outside b' s k (by omega), withReg_outside b s k (by omega)]

/-- A three-byte handler that ends on its operand fetch at pc 254 and 255 looks at its operand bytes only where memory
holds both. -/
theorem twoOperands_congr {f : Byte → Byte → Result}
    (hf : ∀ u v, s.pc = 254 ∨ s.pc = 255 → f u v = .next (fetchFault s)) (hp : s.pc ≤ 255)
    (hb : s.pc ≤ 254 → b' = b) (hc : s.pc ≤ 253 → c' = c) : f b' c' = f b c := by
  by_cases h : s.pc ≤ 253
  · rw [hb (by omega), hc h]
  · rw [hf b' c' (by omega), hf b c (by omega)]

theorem jumpToReg_congr (hp : s.pc ≤ 255) (hb : s.pc ≤ 254 → b' = b) : jumpToReg b' s = jumpToReg b s :=
  withReg_congr _ hp hb

/-- Bytes that differ only past memory decode alike, up to operands the handler does not look at. -/
theorem decode_exec_congr {a : Byte} {i : Instr} {rest : List Byte} (hp : s.pc ≤ 255)
    (hb : s.pc ≤ 254 → b' = b) (hc : s.pc ≤ 253 → c' = c) (hd : decode [a, b, c] = .ok (i, rest)) :
    ∃ j rest', decode [a, b', c'] = .ok (j, rest') ∧ exec j s = exec i s := by
  obtain ⟨hop, _⟩ := decode_first_byte hd
  rcases isOpcode_cases hop with rfl | rfl | rfl | rfl | rfl | rfl | rfl | rfl | rfl | rfl <;> cases hd
  · exact ⟨_, _, decode_ldi b' c' [],
      twoOperands_congr (f := (execLdi · · s)) (fun u v => execLdi_outside u v) hp hb hc⟩
  · exact ⟨_, _, decode_prn b' [c'], show execPrn b' s = execPrn b s from withReg_congr _ hp hb⟩
  · exact ⟨_, _, decode_mul b' c' [],
      twoOperands_congr (f := (execMul · · s)) (fun u v => execMul_outside u v) hp hb hc⟩
  · exact ⟨_, _, decode_hlt [b', c'], rfl⟩
  · exact ⟨_, _, decode_push b' [c'], show execPush b' s = execPush b s from withReg_congr _ hp hb⟩
  · exact ⟨_, _, decode_pop b' [c'], show execPop b' s = execPop b s from withReg_congr _ hp hb⟩
  · exact ⟨_, _, decode_cmp b' c' [],
      twoOperands_congr (f := (execCmp · · s)) (fun u v => execCmp_outside u v) hp hb hc⟩
  · refine ⟨_, _, decode_jne b' [c'], ?_⟩
    rw [exec_jne, exec_jne, execJne, execJne, jumpToReg_congr hp hb]
  · refine ⟨_, _, decode_jeq b' [c'], ?_⟩
    rw [exec_jeq, exec_jeq, execJeq, execJeq, jumpToReg_congr hp hb]
  · exact ⟨_, _, decode_jmp b' [c'], show execJmp b' s = execJmp b s from jumpToReg_congr hp hb⟩

end

/-- Settles O20: the decoder's window agrees with the given bytes wherever memory holds them. -/
theorem stepNeverUsesBytesPastMemory : Obligations.StepNeverUsesBytesPastMemory := by
  rintro s b0 b1 b2 i rest hs hp rfl h1 h2 hd
  obtain ⟨j, rest', hd', he⟩ := decode_exec_congr (b' := byteForDecoder s.mem (s.pc + 1))
    (c' := byteForDecoder s.mem (s.pc + 2)) hp
    (fun h => by rw [byteForDecoder_cell (by omega), h1 (by omega)])
    (fun h => by rw [byteForDecoder_cell (by omega), h2 (by omega)]) hd
  rw [← byteForDecoder_cell hp] at hd'
  rw [step_runs hs hp hd', he]

end Sys2Proof.Machine

/-! ### The ten instructions: result, frame and fatal cases (41_ldi_prn_hlt.md to 44_jumps.md) -/

namespace Sys2Proof.Machine

/-! #### PRN and the jumps -/

/-- Settles O10. -/
theorem prnPrintsItsRegister : Obligations.PrnPrintsItsRegister := fun s =>
  ⟨fun i hp => ⟨_, execPrn_ok i hp, rfl, rfl, rfl, fun _ _ => rfl, rfl, rfl, fun _ => rfl⟩,
    fun r hp => ⟨_, execPrn_outside r hp, fetchFault_precise s⟩,
    fun r hp hr => ⟨_, execPrn_invalid hp hr, raiseIndex_precise s r⟩⟩

/-- What a jump through a register leaves: only pc is new. -/
theorem jumpToReg_completes (i : Fin 8) {s : State} (hp : s.pc ≤ 254) :
    ∃ t, jumpToReg (regByte i) s = .next t ∧ t.pc = (s.reg i).toNat ∧
      SameRegsExcept [] s t ∧ t.fl = s.fl ∧ t.status = s.status ∧ t.out = s.out ∧ SameMemory s t :=
  ⟨_, jumpToReg_ok i hp, rfl, fun _ _ => rfl, rfl, rfl, rfl, fun _ => rfl⟩

/-- The two fatal cases of a jump through a register. -/
theorem jumpToReg_fatal (s : State) :
    (∀ r : Byte, s.pc = 255 →
      ∃ t, jumpToReg r s = .next t ∧ FaultsPrecisely (.outOfRangeRead 256) [.diagOutOfRange] s t) ∧
    (∀ r : Byte, s.pc ≤ 254 → 7 < r.toNat →
      ∃ t, jumpToReg r s = .next t ∧ FaultsPrecisely (.invalidRegisterIndex r) [] s t) :=
  ⟨fun r hp => ⟨_, jumpToReg_outside r hp, fetchFault_precise s⟩,
    fun r hp hr => ⟨_, jumpToReg_invalid hp hr, raiseIndex_precise s r⟩⟩

/-- Settles O16. -/
theorem jmpSetsPcFromItsRegister : Obligations.JmpSetsPcFromItsRegister := by
  intro s
  refine ⟨fun i hp => ?_, jumpToReg_fatal s⟩
  obtain ⟨t, ht, hpc, hframe⟩ := jumpToReg_completes i hp
  exact ⟨t, ht, hpc, hpc ▸ Nat.le_of_lt_succ (s.reg i).isLt, hframe⟩

/-- What a conditional jump that is not taken leaves: only pc is new. -/
theorem advance_frame (s : State) (n : Nat) :
    SameRegsExcept [] s (s.advance n) ∧ (s.advance n).fl = s.fl ∧ (s.advance n).status = s.status ∧
      (s.advance n).out = s.out ∧ SameMemory s (s.advance n) :=
  ⟨fun _ _ => rfl, rfl, rfl, rfl, fun _ => rfl⟩

/-- Settles O17: taken, JEQ is the jump through the register; not taken, it only advances. -/
theorem jeqJumpsWhenEqualIsSet : Obligations.JeqJumpsWhenEqualIsSet := by
  intro s
  obtain ⟨hout, hinv⟩ := jumpToReg_fatal s
  refine ⟨fun i he hp => ?_, fun r he => ⟨_, execJeq_notTaken r he, rfl, advance_frame s 2⟩, fun r he hp => ?_,
    fun r he hp hr => ?_⟩ <;> rw [exec_jeq, execJeq_taken _ he]
  · exact jumpToReg_completes i hp
  · exact hout r hp
  · exact hinv r hp hr

/-- Settles O18: taken, JNE is the jump through the register; not taken, it only advances. -/
theorem jneJumpsWhenEqualIsClear : Obligations.JneJumpsWhenEqualIsClear := by
  intro s
  obtain ⟨hout, hinv⟩ := jumpToReg_fatal s
  refine ⟨fun i he hp => ?_, fun r he => ⟨_, execJne_notTaken r he, rfl, advance_frame s 2⟩, fun r he hp => ?_,
    fun r he hp hr => ?_⟩ <;> rw [exec_jne, execJne_taken _ he]
  · exact jumpToReg_completes i hp
  · exact hout r hp
  · exact hinv r hp hr

/-- Settles O36: as the Equal bit says, one jumps through the register and the other advances. -/
theorem conditionalJumpsAreComplements : Obligations.ConditionalJumpsAreComplements := by
  intro s r
  cases he : equalBit s.fl with
  | true => exact Or.inl ⟨he, execJeq_taken r he, execJne_notTaken r he⟩
  | false => exact Or.inr ⟨he, execJne_taken r he, execJeq_notTaken r he⟩

/-! #### The stack (43_stack.md) -/

/-- The decrement of the stack pointer wraps from 0 to 255 (43_stack.md R90). -/
theorem pushAddr_toNat (s : State) :
    (pushAddr s).toNat = if (s.reg 7).toNat = 0 then 255 else (s.reg 7).toNat - 1 := by
  change (s.reg 7 - 1#8).toNat = _
  have h := (s.reg 7).isLt
  rw [BitVec.toNat_sub]
  split <;> simp only [BitVec.toNat_ofNat] <;> omega

/-- Settles O14. -/
theorem pushStoresBelowTheStackPointer : Obligations.PushStoresBelowTheStackPointer := by
  intro s
  refine ⟨fun i hp => ?_, fun r hp => ⟨_, execPush_outside r hp, fetchFault_precise s⟩,
    fun r hp hr => ⟨_, execPush_invalid hp hr, raiseIndex_precise s r⟩⟩
  obtain ⟨hpc, hfl, hst, hout, hreg, hmem⟩ := pushReg_fields i s
  refine ⟨_, execPush_ok i hp, pushAddr_toNat s, ?_, fun k hk => ?_, fun hm => ?_, fun a ha => ?_,
    congrArg (· + 2) hpc, hfl, hst, hout⟩
  · simp [hreg]
  · simp [hreg, ne_of_not_mem_singleton (i := 7) hk]
  · rw [State.advance_mem, hmem, Memory.read_write_same _ hm]
  · rw [State.advance_mem, hmem, Memory.read_write_other _ _ ha]

/-- Settles O15. -/
theorem popLoadsFromTheStackPointer : Obligations.PopLoadsFromTheStackPointer := by
  intro s
  refine ⟨fun i hp => ⟨_, execPop_ok i hp, fun hi => ?_, fun hi => ?_, fun k hk => ?_, fun _ => rfl, rfl, rfl, rfl, rfl⟩,
    fun r hp => ⟨_, execPop_outside r hp, fetchFault_precise s⟩,
    fun r hp hr => ⟨_, execPop_invalid hp hr, raiseIndex_precise s r⟩⟩
  · simp [popReg_reg, hi]
  · simp [popReg_reg, hi]
  · have hki : k ≠ i := ne_of_val_mem hk (by simp)
    have hk7 : k ≠ 7 := ne_of_val_mem hk (by simp)
    simp [popReg_reg, hki, hk7]

/-! #### Instructions of three bytes, and HLT -/

/-- Settles O9. -/
theorem ldiWritesItsImmediate : Obligations.LdiWritesItsImmediate := by
  intro s imm
  refine ⟨fun i hp => ⟨_, execLdi_ok i imm hp, ?_, fun k hk => ?_, rfl, rfl, rfl, rfl, fun _ => rfl⟩,
    fun r hp => ⟨_, execLdi_outside r imm hp, fetchFault_precise s⟩,
    fun r hp hr => ⟨_, execLdi_invalid imm hp hr, raiseIndex_precise s r⟩⟩
  · simp
  · simp [ne_of_not_mem_singleton hk]

/-- Settles O11. -/
theorem hltHalts : Obligations.HltHalts := fun _ =>
  ⟨_, rfl, rfl, rfl, fun _ _ => rfl, rfl, rfl, fun _ => rfl⟩

/-- MUL's result is the product of bytes, which wraps (42_alu_mul_cmp.md R87). -/
theorem mulLow_eq_mul (p q : Byte) : mulLow p q = p * q := by
  apply BitVec.eq_of_toNat_eq
  rw [mulLow, BitVec.toNat_ofNat, BitVec.toNat_mul]

/-- What MUL leaves: register 0 and pc are new. -/
theorem execMul_completes (u v : Byte) {s : State} (hp : s.pc ≤ 253) :
    ∃ t, exec (.mul u v) s = .next t ∧ t.reg 0 = s.reg 0 * s.reg 1 ∧ SameRegsExcept [0] s t ∧ t.pc = s.pc + 3 ∧
      t.fl = s.fl ∧ t.status = s.status ∧ t.out = s.out ∧ SameMemory s t := by
  refine ⟨_, execMul_ok u v hp, ?_, fun k hk => ?_, rfl, rfl, rfl, rfl, fun _ => rfl⟩
  · simp [mulLow_eq_mul]
  · simp [ne_of_not_mem_singleton (i := 0) hk]

/-- Settles O12: the wrapped product is the remainder modulo 256. -/
theorem mulMultipliesRegisterZeroByOne : Obligations.MulMultipliesRegisterZeroByOne := by
  refine fun s u v => ⟨fun hp => ?_, fun hp => ⟨_, execMul_outside u v hp, fetchFault_precise s⟩⟩
  obtain ⟨t, ht, hmul, hframe⟩ := execMul_completes u v hp
  exact ⟨t, ht, by rw [hmul, BitVec.toNat_mul], hframe⟩

/-- An operand fetch that succeeds gives the byte, and a failed one does not depend on it. -/
theorem withIgnored_congr (u v u' v' : Byte) (s : State) (k : Result) :
    withIgnored u v s k = withIgnored u' v' s k := by
  unfold withIgnored operandAt
  cases memRead ((s.pc : Int) + (1 : Nat)) s <;> cases memRead ((s.pc : Int) + (2 : Nat)) s <;> rfl

/-- Settles O35. -/
theorem mulIgnoresItsOperandBytes : Obligations.MulIgnoresItsOperandBytes := by
  refine fun s u v u' v' => ⟨?_, rfl, rfl, rfl, fun hp => ?_⟩
  · rw [exec_mul, exec_mul]
    exact withIgnored_congr u v u' v' s _
  · obtain ⟨t, ht, hmul, hregs, hpc, _⟩ := execMul_completes u v hp
    exact ⟨t, ht, hmul, hregs, hpc⟩

section
variable {p q : Byte}

theorem compareFlags_of_eq (h : p.toNat = q.toNat) : compareFlags p q = 0x01#8 := if_pos h

theorem compareFlags_of_gt (h : p.toNat > q.toNat) : compareFlags p q = 0x02#8 := (if_neg h.ne').trans (if_pos h)

theorem compareFlags_of_lt (h : p.toNat < q.toNat) : compareFlags p q = 0x04#8 :=
  (if_neg h.ne).trans (if_neg h.not_gt)

end

/-- Settles O13: the flags byte is the pattern of the order, and the fatal cases come in the order of the checks. -/
theorem cmpSetsTheFlagsByte : Obligations.CmpSetsTheFlagsByte := fun s =>
  ⟨fun i j hp => ⟨_, execCmp_ok i j hp, compareFlags_of_eq, compareFlags_of_gt, compareFlags_of_lt, fun _ _ => rfl, rfl,
      rfl, rfl, fun _ => rfl⟩,
    fun a b hp => ⟨_, execCmp_outside a b hp, fetchFault_precise s⟩,
    fun a b hp ha => ⟨_, execCmp_invalid_first b hp ha, raiseIndex_precise s a⟩,
    fun i b hp hb => ⟨_, execCmp_invalid_second i hp hb, raiseIndex_precise s b⟩⟩

/-! #### The ALU's ADD and SUB (42_alu_mul_cmp.md R81, R82) -/

/-- A write of one register changes nothing else. -/
theorem setReg_frame (s : State) (i : Fin 8) (v : Byte) :
    SameRegsExcept [i.val] s (s.setReg i v) ∧ (s.setReg i v).fl = s.fl ∧ (s.setReg i v).pc = s.pc ∧
      (s.setReg i v).status = s.status ∧ (s.setReg i v).out = s.out ∧ SameMemory s (s.setReg i v) :=
  ⟨fun k hk => by simp [ne_of_not_mem_singleton hk], rfl, rfl, rfl, rfl, fun _ => rfl⟩

/-- Settles O41: the two conversions to a byte reduce modulo 256. -/
theorem aluAddAndSubWrap : Obligations.AluAddAndSubWrap := by
  refine fun s a b => ⟨⟨_, rfl, ?_, setReg_frame s a _⟩, ⟨_, rfl, ?_, setReg_frame s a _⟩⟩
  · simp [aluAdd]
  · have hnonneg := Int.emod_nonneg ((s.reg a).toNat - (s.reg b).toNat : Int) (by decide : (256 : Int) ≠ 0)
    simp [aluSub, BitVec.toNat_ofInt, hnonneg]

end Sys2Proof.Machine

/-! ### What no handler looks at: the flags but for bit 0, and the output (10_state.md R20, R22) -/

namespace Sys2Proof.Machine

/-! #### A handler commutes with a change of flags and output

The state is relabelled: its flags byte goes through a function, and events are put in front of its output. No check
looks at either, so a handler's run from the relabelled state is the relabelled run. -/

/-- The state with its flags byte replaced by its image under `f`, and the events `p` in front of its output. -/
def State.relabel (f : Byte → Byte) (p : List Event) (s : State) : State := { s with fl := f s.fl, out := p ++ s.out }

/-- A check with a map applied to the state it may have raised in. -/
def Access.mapRaised {α : Type} (φ : State → State) : Access α → Access α
  | .value v => .value v
  | .raised s => .raised (φ s)

/-- A result with a map applied to its next state. -/
def mapNext (φ : State → State) : Result → Result
  | .next t => .next (φ t)
  | .fault r => .fault r
  | .refused r => .refused r

theorem Access.mapRaised_andThen {α : Type} {φ : State → State} {k k' : α → Result} (c : Access α)
    (h : ∀ v, k' v = mapNext φ (k v)) : (c.mapRaised φ).andThen k' = mapNext φ (c.andThen k) := by
  cases c with
  | value v => exact h v
  | raised s => rfl

section
variable (f : Byte → Byte) (p : List Event) (s : State)

theorem State.relabel_emit (e : Event) : (s.relabel f p).emit e = (s.emit e).relabel f p := by
  simp only [State.relabel, State.emit, List.append_assoc]

theorem operandAt_relabel (n : Nat) (b : Byte) :
    operandAt n b (s.relabel f p) = (operandAt n b s).mapRaised (State.relabel f p) := by
  by_cases hp : s.pc + n ≤ 255
  · rw [operandAt_cell b s hp, operandAt_cell b (s.relabel f p) hp]
    rfl
  · have hp : 255 < s.pc + n := by omega
    rw [operandAt_outside b s hp, operandAt_outside b (s.relabel f p) hp, State.relabel_emit]
    rfl

theorem regIdx_relabel (b : Byte) : regIdx b (s.relabel f p) = (regIdx b s).mapRaised (State.relabel f p) := by
  rcases regByte_or_invalid b with ⟨i, rfl⟩ | hb
  · rw [regIdx_regByte, regIdx_regByte]
    rfl
  · rw [regIdx_invalid s hb, regIdx_invalid (s.relabel f p) hb]
    rfl

variable {f p s}

theorem withReg_relabel (r : Byte) {k k' : Fin 8 → Result} (h : ∀ i, k' i = mapNext (State.relabel f p) (k i)) :
    withReg r (s.relabel f p) k' = mapNext (State.relabel f p) (withReg r s k) := by
  unfold withReg
  rw [operandAt_relabel]
  refine Access.mapRaised_andThen _ fun b => ?_
  rw [regIdx_relabel]
  exact Access.mapRaised_andThen _ h

theorem withRegImm_relabel (r imm : Byte) {k k' : Fin 8 → Byte → Result}
    (h : ∀ i v, k' i v = mapNext (State.relabel f p) (k i v)) :
    withRegImm r imm (s.relabel f p) k' = mapNext (State.relabel f p) (withRegImm r imm s k) := by
  unfold withRegImm
  rw [operandAt_relabel, operandAt_relabel]
  refine Access.mapRaised_andThen _ fun b => Access.mapRaised_andThen _ fun v => ?_
  rw [regIdx_relabel]
  exact Access.mapRaised_andThen _ fun i => h i v

theorem withRegReg_relabel (a b : Byte) {k k' : Fin 8 → Fin 8 → Result}
    (h : ∀ i j, k' i j = mapNext (State.relabel f p) (k i j)) :
    withRegReg a b (s.relabel f p) k' = mapNext (State.relabel f p) (withRegReg a b s k) := by
  unfold withRegReg
  rw [operandAt_relabel, operandAt_relabel]
  refine Access.mapRaised_andThen _ fun c => Access.mapRaised_andThen _ fun d => ?_
  rw [regIdx_relabel, regIdx_relabel]
  exact Access.mapRaised_andThen _ fun i => Access.mapRaised_andThen _ fun j => h i j

theorem withIgnored_relabel (u v : Byte) {k k' : Result} (h : k' = mapNext (State.relabel f p) k) :
    withIgnored u v (s.relabel f p) k' = mapNext (State.relabel f p) (withIgnored u v s k) := by
  unfold withIgnored
  rw [operandAt_relabel, operandAt_relabel]
  exact Access.mapRaised_andThen _ fun _ => Access.mapRaised_andThen _ fun _ => h

theorem jumpToReg_relabel (r : Byte) :
    jumpToReg r (s.relabel f p) = mapNext (State.relabel f p) (jumpToReg r s) := withReg_relabel r fun _ => rfl

theorem pushReg_relabel (i : Fin 8) : pushReg i (s.relabel f p) = (pushReg i s).relabel f p := by
  rw [pushReg_eq, pushReg_eq]
  rfl

/-- A handler's run from the relabelled state is the relabelled run, if bit 0 of the flags is kept and, for CMP, which
writes the flags, all of them are. -/
theorem exec_relabel {i : Instr} (he : equalBit (f s.fl) = equalBit s.fl) (hcmp : ∀ a b, i = .cmp a b → f = id) :
    exec i (s.relabel f p) = mapNext (State.relabel f p) (exec i s) := by
  cases i with
  | ldi r imm =>
    rw [exec_ldi, exec_ldi]
    exact withRegImm_relabel r imm fun _ _ => rfl
  | prn r =>
    rw [exec_prn, exec_prn]
    refine withReg_relabel r fun i => ?_
    rw [State.relabel_emit]
    rfl
  | mul u v =>
    rw [exec_mul, exec_mul]
    exact withIgnored_relabel u v rfl
  | hlt => rfl
  | push r =>
    rw [exec_push, exec_push]
    refine withReg_relabel r fun i => ?_
    rw [pushReg_relabel]
    rfl
  | pop r =>
    rw [exec_pop, exec_pop]
    refine withReg_relabel r fun i => ?_
    rw [popRead, popRead]
    rfl
  | cmp a b =>
    obtain rfl := hcmp a b rfl
    rw [exec_cmp, exec_cmp]
    exact withRegReg_relabel a b fun _ _ => rfl
  | jne r =>
    rw [exec_jne, exec_jne]
    cases h : equalBit s.fl with
    | true =>
      rw [execJne_notTaken r h, execJne_notTaken r (s := s.relabel f p) (he.trans h)]
      rfl
    | false =>
      rw [execJne_taken r h, execJne_taken r (s := s.relabel f p) (he.trans h)]
      exact jumpToReg_relabel r
  | jeq r =>
    rw [exec_jeq, exec_jeq]
    cases h : equalBit s.fl with
    | true =>
      rw [execJeq_taken r h, execJeq_taken r (s := s.relabel f p) (he.trans h)]
      exact jumpToReg_relabel r
    | false =>
      rw [execJeq_notTaken r h, execJeq_notTaken r (s := s.relabel f p) (he.trans h)]
      rfl
  | jmp r =>
    rw [exec_jmp, exec_jmp]
    exact jumpToReg_relabel r

end

/-! #### The flags -/

/-- Replacing the flags byte is a relabelling. -/
theorem exec_setFl {i : Instr} {s t : State} {f : Byte} (hi : ∀ a b, i ≠ .cmp a b) (hf : equalBit f = equalBit s.fl)
    (h : exec i s = .next t) : exec i (s.setFl f) = .next (t.setFl f) := by
  have hr := exec_relabel (f := fun _ => f) (p := []) hf fun a b hab => absurd hab (hi a b)
  rw [h] at hr
  exact hr

/-- Settles O31: every handler but CMP's commutes with replacing the flags byte, so in particular with replacing it by
itself, and so it keeps it. -/
theorem flagsAreWrittenByCmpAndReadInBitZero : Obligations.FlagsAreWrittenByCmpAndReadInBitZero := by
  refine fun s f => ⟨fun i t hi h => ⟨?_, fun hf => exec_setFl hi hf h⟩, fun i j hp => ?_⟩
  · have hself : exec i s = .next (t.setFl s.fl) := exec_setFl hi rfl h
    have ht : t = t.setFl s.fl := Host.Outcome.next.inj (h.symm.trans hself)
    rw [ht, State.setFl_fl]
  · rw [exec_cmp, exec_cmp, execCmp_ok i j hp, execCmp_ok i j (s := s.setFl f) hp]
    rfl

/-! #### The output -/

/-- Events in front of the output stay there through a step, and change nothing else of it. -/
theorem step_prepend {s t : State} (p : List Event) (h : step s = .next t) :
    step (s.relabel id p) = .next (t.relabel id p) := by
  obtain ⟨hs, ⟨hp, i, rest, hd, he⟩ | ⟨hp, ⟨e, hd⟩, rfl⟩ | ⟨hp, rfl⟩⟩ := step_cases h
  · rw [step_runs (s := s.relabel id p) hs hp hd, exec_relabel rfl fun _ _ _ => rfl, he]
    rfl
  · rw [step_unrecognized (s := s.relabel id p) hs hp hd, unrecognized, State.relabel_emit]
    rfl
  · rw [step_outside (s := s.relabel id p) hs hp, State.relabel_emit]
    rfl

/-- The source of an event a step from `s` to `t` appends. -/
def Event.FromStep (s t : State) : Event → Prop
  | .print v => s.mem.read s.pc = 0x47#8 ∧ ∃ i : Fin 8, s.mem.read (s.pc + 1) = regByte i ∧ v = s.reg i
  | .diagOutOfRange => ∃ addr : Int, 255 < addr ∧ t.status = .faulted (.outOfRangeRead addr)
  | .diagUnrecognizedOpcode => s.pc ≤ 255 ∧ isOpcode (s.mem.read s.pc) = false

/-- A step appends no event, or one from its source. -/
theorem step_out_cases {s t : State} (h : step s = .next t) :
    t.out = s.out ∨ ∃ e : Event, t.out = s.out ++ [e] ∧ e.FromStep s t := by
  obtain ⟨_, ⟨hp, i, _, hd, he⟩ | ⟨hp, herr, rfl⟩ | ⟨hp, rfl⟩⟩ := step_cases h
  · rcases exec_cases he with hr | hc
    · rcases hr.precise with ⟨addr, ha, _, hst, hout, _⟩ | ⟨_, _, _, hout, _⟩
      · exact Or.inr ⟨_, hout, addr, ha, hst⟩
      · exact Or.inl (hout.trans (List.append_nil _))
    · rcases hc.out with hout | ⟨r, j, hi, hr, hp', hout⟩
      · exact Or.inl hout
      · obtain ⟨_, _, _, hprn⟩ := decode_fetchWindow hp hd
        obtain ⟨hop, hb⟩ := hprn r hi
        rw [byteForDecoder_cell (by omega)] at hb
        exact Or.inr ⟨_, hout, hop, j, hb.trans hr, rfl⟩
  · exact Or.inr ⟨_, rfl, hp, (decode_fetchWindow_error hp).mp herr⟩
  · exact Or.inr ⟨_, rfl, s.pc, by omega, rfl⟩

/-- The events a step appends, each from its source. -/
theorem step_appends {s t : State} (h : step s = .next t) :
    ∃ events : List Event, t.out = s.out ++ events ∧ events.length ≤ 1 ∧ ∀ e ∈ events, e.FromStep s t := by
  rcases step_out_cases h with hout | ⟨e, hout, he⟩
  · exact ⟨[], hout.trans (List.append_nil _).symm, by simp, by simp⟩
  · exact ⟨[e], hout, by simp, by simpa using he⟩

/-- Settles O33: the step from an empty output appends the events, and the steps from any two outputs are that step with
events in front. -/
theorem outputIsAppendOnlyAndNeverRead : Obligations.OutputIsAppendOnlyAndNeverRead := by
  intro s t o h
  obtain ⟨u, hu⟩ := step_total (s := { s with out := [] }) (step_cases h).1
  obtain ⟨events, hout, hlen, hsrc⟩ := step_appends h
  have hs : step s = .next { u with out := s.out ++ u.out } := by
    simpa only [State.relabel, List.append_nil, id] using step_prepend s.out hu
  obtain rfl : t = { u with out := s.out ++ u.out } := Host.Outcome.next.inj (h.symm.trans hs)
  obtain rfl : u.out = events := List.append_cancel_left hout
  exact ⟨u.out, rfl, hlen, fun v hv => hsrc _ hv, fun hd => hsrc _ hd, fun hd => hsrc _ hd,
    by simpa only [State.relabel, List.append_nil, id] using step_prepend o hu⟩

/-! #### Safe runs -/

/-- A safe run starts Running or Halted. -/
theorem SafeRun.status {k : Nat} {s : State} (h : SafeRun k s) : s.status = .running ∨ s.status = .halted := by
  cases k with
  | zero => exact h.1
  | succ k => exact h.symm.imp_left fun ⟨hs, _⟩ => hs

/-- An event of a step that neither starts livelocked nor ends Faulted is a Print. -/
theorem Event.FromStep.eq_print {s t : State} {e : Event} (he : e.FromStep s t) (hs : s.status = .running)
    (hl : ¬ Livelocked s) (ht : t.status = .running ∨ t.status = .halted) : ∃ v, e = .print v := by
  cases e with
  | print v => exact ⟨v, rfl⟩
  | diagOutOfRange =>
    obtain ⟨_, _, hf⟩ := he
    simp [hf] at ht
  | diagUnrecognizedOpcode => exact absurd ⟨hs, he⟩ hl

/-- Settles O34, by induction on the run's length. -/
theorem safeRunsPrintNoDiagnostic : Obligations.SafeRunsPrintNoDiagnostic := by
  intro k
  induction k with
  | zero =>
    intro s t _ hrun
    cases hrun
    exact ⟨[], (List.append_nil _).symm, by simp⟩
  | succ k ih =>
    intro s t hsafe hrun
    rcases hsafe with hs | ⟨hs, hl, u, hu, hsafe⟩
    · have hstop : Sys2Proof.core.run (k + 1) s = .fault .halted := by
        simp only [Host.Core.run, show Sys2Proof.core.step s = .fault .halted from step_halted hs]
      cases hstop.symm.trans hrun
    · rw [core_run_next k hu] at hrun
      obtain ⟨events, hout, hprint⟩ := ih u t hsafe hrun
      obtain ⟨first, hfirst, _, hsrc⟩ := step_appends hu
      refine ⟨first ++ events, by rw [hout, hfirst, List.append_assoc], fun e he => ?_⟩
      rcases List.mem_append.mp he with he | he
      · exact (hsrc e he).eq_print hs hl hsafe.status
      · exact hprint e he

end Sys2Proof.Machine

/-! ### Rules about more than one instruction (20_memory.md sections 7 and 8, 43_stack.md, 95_test_vectors.md S4 and S5) -/

namespace Sys2Proof.Machine

/-! #### Compare, then branch -/

theorem core_run_two {s u t : State} (hs : step s = .next u) (hu : step u = .next t) :
    Sys2Proof.core.run 2 s = .next t := by
  rw [core_run_next 1 hs, core_run_next 0 hu]
  rfl

/-- A comparison sets the bit the conditional jumps look at exactly for equal registers. -/
theorem equalBit_compareFlags (p q : Byte) : equalBit (compareFlags p q) = decide (p = q) := by
  obtain ⟨heq, _, _⟩ := compareFlags_bits p q
  exact Bool.eq_iff_iff.mpr (heq.trans decide_eq_true_iff.symm)

/-- JEQ in memory goes to the register's value or past itself, as the Equal bit says. -/
theorem execJeq_ok (k : Fin 8) {s : State} (hp : s.pc ≤ 254) :
    exec (.jeq (regByte k)) s = .next (s.setPc (if equalBit s.fl then (s.reg k).toNat else s.pc + 2)) := by
  rw [exec_jeq]
  cases he : equalBit s.fl with
  | true => rw [execJeq_taken _ he, jumpToReg_ok k hp, if_pos rfl]
  | false => exact execJeq_notTaken _ he

/-- JNE in memory goes past itself or to the register's value, as the Equal bit says. -/
theorem execJne_ok (k : Fin 8) {s : State} (hp : s.pc ≤ 254) :
    exec (.jne (regByte k)) s = .next (s.setPc (if equalBit s.fl then s.pc + 2 else (s.reg k).toNat)) := by
  rw [exec_jne]
  cases he : equalBit s.fl with
  | true => exact execJne_notTaken _ he
  | false => rw [execJne_taken _ he, jumpToReg_ok k hp, if_neg Bool.false_ne_true]

/-- Settles O37: CMP leaves memory and the other registers alone, so the second step runs the jump that follows it. -/
theorem compareThenBranch : Obligations.CompareThenBranch := by
  intro s i j k hs hp h0 h1 h2 h4
  let u : State := (s.setFl (compareFlags (s.reg i) (s.reg j))).advance 3
  have hcmp : step s = .next u := by
    rw [stepRunsTheDecodedInstruction s (.cmp (regByte i) (regByte j)) [] hs (by omega)
      (by rw [h0, h1, h2]; exact decode_cmp _ _ _), exec_cmp, execCmp_ok i j (by omega)]
  have hup : u.pc ≤ 254 := show s.pc + 3 ≤ 254 by omega
  have hjump {op : Byte} {jump : Instr} {rest : List Byte} (hop : s.mem.read (s.pc + 3) = op)
      (hd : decode [op, regByte k, u.mem.read (u.pc + 2)] = .ok (jump, rest)) : step u = exec jump u :=
    stepNeverUsesBytesPastMemory u _ _ _ _ _ hs (by omega) hop.symm (fun _ => h4.symm) (fun _ => rfl) hd
  refine ⟨fun h3 => ?_, fun h3 => ?_⟩
  · have hjeq := (hjump h3 (decode_jeq _ _)).trans (execJeq_ok k hup)
    exact ⟨_, core_run_two hcmp hjeq, hs, by simp [equalBit_compareFlags, u]⟩
  · have hjne := (hjump h3 (decode_jne _ _)).trans (execJne_ok k hup)
    exact ⟨_, core_run_two hcmp hjne, hs, by simp [equalBit_compareFlags, u]⟩

/-! #### The stack -/

/-- A handler keeps the canonical form of memory. -/
theorem wf_of_exec {i : Instr} {s t : State} (h : exec i s = .next t) (hm : s.mem.wf = true) : t.mem.wf = true := by
  rcases exec_cases h with hr | hc
  · rw [hr.mem_eq, hm]
  · exact hc.wf hm

/-- The byte PUSH stores: the register as it stands after the decrement (43_stack.md R90). -/
def pushedByte (i : Fin 8) (s : State) : Byte := if i = 7 then pushAddr s else s.reg i

theorem pushAddr_add_one (s : State) : pushAddr s + 1#8 = s.reg 7 := BitVec.sub_add_cancel (s.reg 7) 1#8

/-- The registers after PUSH then POP: the popped one holds the pushed byte, and the stack pointer is back, unless it is
the popped one. -/
theorem popReg_pushReg_reg (i j k : Fin 8) {s : State} (hm : s.mem.wf = true) :
    ((popReg j ((pushReg i s).advance 2)).advance 2).reg k =
      if k = 7 then (if j = 7 then pushedByte i s + 1#8 else s.reg 7)
      else if k = j then pushedByte i s else s.reg k := by
  obtain ⟨_, _, _, _, hreg, hmem⟩ := pushReg_fields i s
  have hslot : (pushReg i s).mem.read (pushAddr s).toNat = pushedByte i s := by
    rw [hmem, Memory.read_write_same _ hm, pushedByte]
  rw [State.advance_reg, popReg_reg]
  simp only [State.advance_reg, State.advance_mem, hreg, if_true, hslot]
  by_cases hk : k = 7
  · by_cases hj : j = 7
    · simp [hk, hj]
    · simp [hk, hj, pushAddr_add_one]
  · simp [hk]

/-- Popping into the pushed register restores every register. -/
theorem popReg_pushReg_same (i k : Fin 8) {s : State} (hm : s.mem.wf = true) :
    ((popReg i ((pushReg i s).advance 2)).advance 2).reg k = s.reg k := by
  rw [popReg_pushReg_reg i i k hm]
  by_cases hk : k = 7
  · by_cases hi : i = 7
    · simp [hk, hi, pushedByte, pushAddr_add_one]
    · simp [hk, hi]
  · by_cases hki : k = i
    · subst hki
      simp [hk, pushedByte]
    · simp [hk, hki]

/-- Settles O38: the registers after both, clause by clause. -/
theorem pushThenPop : Obligations.PushThenPop := by
  intro s i j hm hp
  obtain ⟨hpc, _, _, _, _, hmem⟩ := pushReg_fields i s
  have hreg := fun k => popReg_pushReg_reg i j k hm
  have hup : ((pushReg i s).advance 2).pc = s.pc + 2 := congrArg (· + 2) hpc
  refine ⟨_, _, execPush_ok i (by omega), execPop_ok j (by omega), congrArg (· + 2) hup, ?_,
    fun hj => ⟨?_, fun k hk => ?_⟩, fun hj hi => ⟨?_, fun k hk => ?_⟩, fun a ha => ?_⟩
  · rintro rfl k _
    exact popReg_pushReg_same i k hm
  · rw [hreg, if_neg hj, if_pos rfl]
    rfl
  · have hkj : k ≠ j := ne_of_not_mem_singleton hk
    rw [hreg, if_neg hj, if_neg hkj]
    exact ite_eq_right_iff.mpr fun hk7 => by rw [hk7]
  · rw [hreg, if_pos rfl, if_pos hj, pushedByte, if_neg hi]
    rfl
  · have hk7 : k ≠ 7 := ne_of_not_mem_singleton (i := 7) hk
    rw [hreg, if_neg hk7, if_neg (hj ▸ hk7)]
  · change (pushReg i s).mem.read a = _
    rw [hmem, Memory.read_write_other _ _ ha]

/-- Settles O39: after the PUSH the cell at pc holds the pushed byte, and the two after it are as before. -/
theorem storeIsSeenByTheNextFetch : Obligations.StoreIsSeenByTheNextFetch := by
  intro s i next rest hs hm hp hi h0 h1 haddr hd
  have hpush : step s = exec (.push (regByte i)) s :=
    stepRunsTheDecodedInstruction s _ [_] hs (by omega) (by rw [h0, h1]; exact decode_push _ _)
  obtain ⟨completes, -⟩ := pushStoresBelowTheStackPointer s
  obtain ⟨t, ht, _, _, _, hslot, hother, hpc, _, hst, _⟩ := completes i (by omega)
  have hslot : t.mem.read (s.pc + 2) = s.reg i := by rw [← haddr, hslot hm, if_neg hi]
  refine ⟨t, hpush.trans ht, hpc, stepRunsTheDecodedInstruction t next rest (hst.trans hs) (by omega) ?_⟩
  rw [hpc, hslot, hother _ (by omega), hother _ (by omega)]
  exact hd

/-- The `n`-th cell below a stack pointer, counted from 0. -/
def stackSlot (sp : Byte) (n : Nat) : Nat := (sp - BitVec.ofNat 8 (n + 1)).toNat

theorem sub_one_sub_ofNat (sp : Byte) (n : Nat) : sp - 1#8 - BitVec.ofNat 8 n = sp - BitVec.ofNat 8 (n + 1) := by
  rw [BitVec.ofNat_add, BitVec.sub_sub, BitVec.add_comm]

/-- The cells below a decremented stack pointer are the later cells below it. -/
theorem stackSlot_sub_one (sp : Byte) (n : Nat) : stackSlot (sp - 1#8) n = stackSlot sp (n + 1) :=
  congrArg BitVec.toNat (sub_one_sub_ofNat sp (n + 1))

/-- Fewer than 256 pushes do not come back to the first cell. -/
theorem stackSlot_zero_ne {n : Nat} (sp : Byte) (hn : n + 1 < 256) : stackSlot sp 0 ≠ stackSlot sp (n + 1) := by
  have h := sp.isLt
  simp only [stackSlot, BitVec.toNat_sub, BitVec.toNat_ofNat]
  omega

/-- Settles O40, by induction on the list: the first push fills the cell below the stack pointer, and the others, fewer
than 256, the cells below that one. -/
theorem pushesFillTheStackDownward : Obligations.PushesFillTheStackDownward := by
  intro pushed
  induction pushed with
  | nil =>
    intro s _ _ _
    exact ⟨s, rfl, by simp, fun _ _ => rfl, rfl, by simp, fun _ _ => rfl⟩
  | cons i pushed ih =>
    intro s hm h7 hp
    simp only [List.length_cons] at hp
    obtain ⟨hi, h7⟩ := List.forall_mem_cons.mp h7
    obtain ⟨completes, -⟩ := pushStoresBelowTheStackPointer s
    obtain ⟨u, hu, _, husp, hureg, hslot, hother, hupc, _⟩ := completes i (by omega)
    obtain ⟨t, ht, hsp, hreg, hpc, hfill, hkeep⟩ := ih u (wf_of_exec hu hm) h7 (by omega)
    have husp : u.reg 7 = s.reg 7 - 1#8 := husp
    have hshift : ∀ n, (u.reg 7 - BitVec.ofNat 8 (n + 1)).toNat = stackSlot (s.reg 7) (n + 1) := fun n => by
      rw [husp]
      exact stackSlot_sub_one _ n
    simp only [hshift] at hfill hkeep
    refine ⟨t, ?_, ?_, fun k hk => ?_, ?_, fun n k hn => ?_, fun a ha => ?_⟩
    · simp only [List.map_cons, execAll, hu, ht]
    · rw [hsp, husp, List.length_cons, sub_one_sub_ofNat]
    · rw [hreg k hk, hureg k hk]
    · rw [hpc, hupc, List.length_cons]
      omega
    · cases n with
      | zero =>
        obtain rfl : i = k := by simpa using hn
        have hfirst := hkeep (stackSlot (s.reg 7) 0) fun n hn => stackSlot_zero_ne _ (by omega)
        exact hfirst.trans ((hslot hm).trans (if_neg hi))
      | succ n =>
        have hn : pushed[n]? = some k := by simpa using hn
        have hk7 : k ≠ 7 := h7 k (List.mem_of_getElem? hn)
        exact (hfill n k hn).trans (hureg k (by simpa [Fin.ext_iff] using hk7))
    · rw [hkeep a fun n hn => ha (n + 1) (Nat.succ_lt_succ hn)]
      exact hother a (ha 0 (Nat.succ_pos _))

end Sys2Proof.Machine

/-! ### The console's text (60_exceptions.md section 6) and the host's commands (70_reset_and_hazards.md section 1) -/

namespace Sys2Proof.Machine

/-! #### The decimal numeral of a byte -/

theorem digitChar_toNat {d : Nat} (hd : d < 10) : (digitChar d).toNat = 48 + d := by
  revert d
  decide

theorem eq_zero_of_digitChar {d : Nat} (hd : d < 10) (h : digitChar d = '0') : d = 0 := by
  have hn : (digitChar d).toNat = 48 := congrArg Char.toNat h
  rw [digitChar_toNat hd] at hn
  omega

/-- The digits `ds`, most significant first, write `n` with no leading zero. -/
structure IsNumeral (n : Nat) (ds : List Nat) : Prop where
  ne_nil : ds ≠ []
  lt_ten : ∀ d ∈ ds, d < 10
  value : ds.foldl (fun m d => 10 * m + d) 0 = n
  head : ds.head? = some 0 → ds = [0]

/-- The text of a byte is the characters of its numeral: one, two or three digits. -/
theorem decimal_eq_map_digitChar (v : Byte) : ∃ ds, IsNumeral v.toNat ds ∧ decimal v = ds.map digitChar := by
  have hv := v.isLt
  by_cases h10 : v.toNat < 10
  · exact ⟨[v.toNat], ⟨by simp, by simpa using h10, by simp, by simp⟩, by simp [decimal, h10]⟩
  · by_cases h100 : v.toNat < 100
    · refine ⟨[v.toNat / 10, v.toNat % 10], ⟨by simp, ?_, ?_, ?_⟩, by simp [decimal, h10, h100]⟩
      · simp only [List.mem_cons, List.not_mem_nil, or_false, forall_eq_or_imp, forall_eq]
        omega
      · simp only [List.foldl_cons, List.foldl_nil]
        omega
      · simp only [List.head?_cons, Option.some.injEq]
        omega
    · refine ⟨[v.toNat / 100, v.toNat / 10 % 10, v.toNat % 10], ⟨by simp, ?_, ?_, ?_⟩, by simp [decimal, h10, h100]⟩
      · simp only [List.mem_cons, List.not_mem_nil, or_false, forall_eq_or_imp, forall_eq]
        omega
      · simp only [List.foldl_cons, List.foldl_nil]
        omega
      · simp only [List.head?_cons, Option.some.injEq]
        omega

section
variable {n : Nat} {ds : List Nat}

/-- Reading a numeral's characters gives its value. -/
theorem IsNumeral.value_of_chars (h : IsNumeral n ds) :
    (ds.map digitChar).foldl (fun m c => 10 * m + (c.toNat - 48)) 0 = n := by
  rw [List.foldl_map, ← h.value]
  refine List.foldl_ext _ _ 0 fun m d hd => ?_
  rw [digitChar_toNat (h.lt_ten d hd), Nat.add_sub_cancel_left]

/-- A numeral's characters are digits. -/
theorem IsNumeral.chars_are_digits (h : IsNumeral n ds) : ∀ c ∈ ds.map digitChar, 48 ≤ c.toNat ∧ c.toNat ≤ 57 := by
  refine List.forall_mem_map.mpr fun d hd => ?_
  have hlt := h.lt_ten d hd
  rw [digitChar_toNat hlt]
  omega

/-- A numeral's text starts with the digit 0 only if that is all of it. -/
theorem IsNumeral.eq_zero_of_head (h : IsNumeral n ds) (hc : (ds.map digitChar).head? = some '0') :
    ds.map digitChar = ['0'] := by
  rw [List.head?_map, Option.map_eq_some_iff] at hc
  obtain ⟨d, hd, hdc⟩ := hc
  obtain rfl := eq_zero_of_digitChar (h.lt_ten d (List.mem_of_head? hd)) hdc
  rw [h.head hd]
  rfl

end

/-- Settles O44: the facts about a numeral's digits, read off its characters. -/
theorem printedTextIsTheDecimalNumeral : Obligations.PrintedTextIsTheDecimalNumeral := by
  refine ⟨fun v => ⟨rfl, ?_⟩, ⟨Config.diagUnrecognizedBefore, Config.diagUnrecognizedAfter, rfl⟩,
    fun _ _ => List.flatMap_append⟩
  obtain ⟨ds, h, hv⟩ := decimal_eq_map_digitChar v
  rw [hv]
  exact ⟨by simpa using h.ne_nil, h.value_of_chars, h.chars_are_digits, h.eq_zero_of_head⟩

/-! #### Reset -/

/-- Settles O47. -/
theorem resetState : Obligations.ResetState :=
  ⟨fun _ => rfl, rfl, by decide, rfl, rfl, rfl, rfl⟩

/-! #### Load and start -/

/-- A sequence that is too long, or holds a value above 255, is not installed in any state. -/
theorem State.install_ne_ok {s t : State} {program : List Nat}
    (h : 256 < program.length ∨ ∃ b ∈ program, 255 < b) : s.install program ≠ .ok t := by
  intro ht
  obtain ⟨-, hlen, hbyte, -⟩ := State.install_eq_ok_iff.mp ht
  rcases h with h | ⟨b, hb, h⟩
  · omega
  · have := hbyte b hb
    omega

/-- An acceptable program is installed after reset, in memory alone, and reads back from address 0. -/
theorem install_reset {program : List Nat} (hlen : program.length ≤ 256) (hbyte : ∀ b ∈ program, b ≤ 255) :
    ∃ m : Memory, State.reset.install program = .ok { State.reset with mem := m } ∧
      ∀ a : Nat, (m.read a).toNat = program.getD a 0 := by
  have h := (State.install_eq_ok_iff (s := State.reset)).mpr ⟨rfl, hlen, hbyte, rfl⟩
  exact ⟨_, h, State.read_install Memory.wf_nil h⟩

/-- Settles O45: load and launch accept what install accepts, and then the only new state is memory. -/
theorem loadInstallsTheProgram : Obligations.LoadInstallsTheProgram := by
  refine ⟨fun program => ⟨fun hlen hbyte => ?_, fun hbad => ⟨?_, ?_⟩, fun u hu => load_refused (Or.inr hu) program⟩,
    fun u hu => load_refused (Or.inl hu), fun u hu => start_refused (Or.inr hu)⟩
  · obtain ⟨m, hm, hread⟩ := install_reset hlen hbyte
    have hload := (Session.load_eq_ok_iff (u := .afterReset)).mpr ⟨rfl, _, hm, rfl⟩
    have hlaunch := launch_eq_ok_iff.mpr ⟨_, hm, rfl⟩
    exact ⟨_, hload, hread, rfl, rfl, rfl, rfl, rfl, load_refused (Or.inl rfl), hlaunch,
      _, Session.start_eq_ok_iff.mpr ⟨rfl, rfl, rfl⟩, hlaunch⟩
  · refine exists_error fun v hv => ?_
    obtain ⟨-, t, ht, -⟩ := Session.load_eq_ok_iff.mp hv
    exact State.install_ne_ok hbad ht
  · refine exists_error fun t ht => ?_
    obtain ⟨s, hs, -⟩ := launch_eq_ok_iff.mp ht
    exact State.install_ne_ok hbad hs

/-- A running core accepts no command (70_reset_and_hazards.md R122, log entry 11). -/
theorem command_refused_of_running {u : Session} (hu : u.core.status = .running) (c : Command) :
    ∃ e, u.command c = .error e := by
  have notIdle : u.core.status ≠ .idle := by simp [hu]
  cases c with
  | reset => exact exists_error fun v hv => (Session.reset_eq_ok_iff.mp hv).1 hu
  | load program => exact load_refused (Or.inr notIdle) program
  | start => exact start_refused (Or.inl notIdle)

/-- A launched program stands at pc 0, Running. -/
theorem launch_running {program : List Nat} {t : State} (h : launch program = .ok t) : t.status = .running ∧ t.pc = 0 := by
  obtain ⟨s, hs, rfl⟩ := launch_eq_ok_iff.mp h
  obtain ⟨-, -, -, rfl⟩ := State.install_eq_ok_iff.mp hs
  exact ⟨rfl, rfl⟩

/-- Settles O46. -/
theorem startRunsTheCore : Obligations.StartRunsTheCore :=
  ⟨fun _ hidle hl => Session.start_eq_ok_iff.mpr ⟨hl, hidle, rfl⟩, fun _ => start_refused, fun _ => step_total,
    fun _ c hu => command_refused_of_running hu c, fun _ _ => launch_running⟩

end Sys2Proof.Machine
